-- ==== Sys2Proof/Word.lean ====
section
/-! DEFINITION. The word types of the vforth core (R6: a word is 32 bits, a byte 8 bits; R4: XLEN = 32). -/

namespace Sys2Proof

/-- A 32-bit word: a stack cell, a register, an instruction word, an address (R4, R6). -/
abbrev Word := BitVec 32

/-- An 8-bit byte of memory (R6). -/
abbrev Byte := BitVec 8

end Sys2Proof
end

