-- ==== Sys2Proof/Config.lean ====
section
/-! DEFINITION. What the source fixes (R4), the parameters it leaves open (R5), and the free values the spec leaves unspecified. -/

namespace Sys2Proof

/-- R33: which byte of a word lies at the lowest address. -/
inductive ByteOrder where
  | little
  | big
deriving DecidableEq, Repr, Inhabited

/-- R150: the four causes of a fatal condition. -/
inductive HaltCause where
  /-- code 1, raised by `@`, `!`, `+!` -/
  | misalignedWordAccess
  /-- code 2, raised by the step's dispatch -/
  | reservedClass
  /-- code 3, raised by the step's dispatch -/
  | reservedPrimitive
  /-- code 4, raised by `$HWIO` -/
  | reservedHwioCommand
deriving DecidableEq, Repr, Inhabited

/-- R150: the spec's own numeric label of a cause. -/
def HaltCause.code : HaltCause → Nat
  | .misalignedWordAccess => 1
  | .reservedClass => 2
  | .reservedPrimitive => 3
  | .reservedHwioCommand => 4

/-- R4: `PCMASK`, bits 19 to 2. -/
def pcMask : Word := 0x000FFFFC#32

/-- R4: `MEM_BYTES` = 2^20. -/
def memBytes : Nat := 1048576

/-- R4: `NUM_PRIMS`. -/
def numPrims : Nat := 31

/-- R4: `ENTRY_SLOT`, the byte address of the word Reset reads. -/
def entrySlot : Word := 0x00000008#32

/-- R5: the configuration, the parameters of the step relation that the source names without a value. `NOT_APPLICABLE` has no
field: R5 lets a model use an option type for it. `INIT_MEM` is the memory of the state itself (log 2). -/
structure Config where
  /-- `PRIM_CODE`: the 8-bit code of each primitive, in the order of R56's table. -/
  primCodes : List Byte
  /-- `BYTE_ORDER` -/
  byteOrder : ByteOrder
  /-- `RST_DSP` -/
  rstDsp : Word
  /-- `RST_RSP` -/
  rstRsp : Word
  /-- `DS_LIMIT`, lowest byte address of the data stack window -/
  dsLimit : Word
  /-- `RS_LIMIT`, lowest byte address of the return stack window -/
  rsLimit : Word
  /-- `CYCLES_PER_FRAME` -/
  cyclesPerFrame : Word
  /-- `FRAME_RATE` -/
  frameRate : Word
  /-- `RELOC_BASE` -/
  relocBase : Word
  /-- `DIV_MIN_NEG1`, the result of `0x80000000 / 0xFFFFFFFF` -/
  divMinNeg1 : Word
deriving DecidableEq, Repr, Inhabited

/-- R56: the default `PRIM_CODE`, codes `0x00` to `0x1E` in the order of the table. -/
def defaultPrimCodes : List Byte :=
  [0x00, 0x01, 0x02, 0x03, 0x04, 0x05, 0x06, 0x07, 0x08, 0x09, 0x0A, 0x0B, 0x0C, 0x0D, 0x0E, 0x0F] ++
  [0x10, 0x11, 0x12, 0x13, 0x14, 0x15, 0x16, 0x17, 0x18, 0x19, 0x1A, 0x1B, 0x1C, 0x1D, 0x1E]

/-- R5: the reference configuration CFG-REF. DESIGN CHOICE for the OPEN parameters (log 1). -/
def Config.ref : Config where
  primCodes := defaultPrimCodes
  byteOrder := .little
  rstDsp := 0x000FF000#32
  rstRsp := 0x000FFFF0#32
  dsLimit := 0x000FE000#32
  rsLimit := 0x000FF000#32
  cyclesPerFrame := 1000#32
  frameRate := 60#32
  relocBase := 0#32
  divMinNeg1 := 0x80000000#32

/-- The free 32-bit value number `n` (R153, U10, U11). Nothing constrains it; the state's counter `draws` supplies `n` (log 3). -/
opaque Config.freeWord : Nat → Word

/-- The free halt cause number `n`: `halt_cause` is unspecified while `halted` = 0 (R19, U11; log 8). -/
opaque Config.freeCause : Nat → HaltCause

/-- The free answer number `n` of `Bridge.GetKey()`: a 32-bit key code, or none (R145, U7; log 9). -/
opaque Config.freeKey : Nat → Option Word

end Sys2Proof
end

