-- ==== Sys2Proof/Syntax.lean ====
section
/-! DEFINITION. The instructions: one constructor per row of spec/opcode_table.json, in the table's order (R55, R56). -/

namespace Sys2Proof

/-- One instruction of the vforth ISA. The operands are the encoded fields (R52, R53); a primitive has none (R54). -/
inductive Instr where
  /-- `LIT` (R71): the 31-bit literal field -/
  | lit (imm31 : BitVec 31)
  /-- `CALL` (R72): the 28-bit relative byte offset -/
  | call (off28 : BitVec 28)
  /-- `BRA` (R73) -/
  | bra (off28 : BitVec 28)
  /-- `BZ` (R74) -/
  | bz (off28 : BitVec 28)
  /-- `@` (R90) -/
  | fetch
  /-- `!` (R91) -/
  | store
  /-- `C@` (R92) -/
  | cFetch
  /-- `C!` (R93) -/
  | cStore
  /-- `+!` (R94) -/
  | plusStore
  /-- `+` (R101) -/
  | plus
  /-- `-` (R102) -/
  | minus
  /-- `*` (R103) -/
  | times
  /-- `/` (R104); the table's mnemonic is ROW -/
  | divide
  /-- `AND` (R105) -/
  | bitAnd
  /-- `OR` (R106) -/
  | bitOr
  /-- `XOR` (R107) -/
  | bitXor
  /-- `NOT` (R108) -/
  | bitNot
  /-- `0=` (R109) -/
  | zeroEqual
  /-- `0>` (R110) -/
  | zeroGreater
  /-- `0<` (R111) -/
  | zeroLess
  /-- `0-` (R112) -/
  | negate
  /-- `1+` (R113) -/
  | onePlus
  /-- `1-` (R114) -/
  | oneMinus
  /-- `2*` (R115) -/
  | twoStar
  /-- `2/` (R116); the table's mnemonic is 2 -/
  | twoSlash
  /-- `DUP` (R130) -/
  | dup
  /-- `OVER` (R131) -/
  | overCell
  /-- `SWAP` (R132) -/
  | swap
  /-- `ROT` (R133) -/
  | rot
  /-- `DROP` (R134) -/
  | drop
  /-- `;` (R140) -/
  | semi
  /-- `>R` (R141) -/
  | toR
  /-- `R>` (R142) -/
  | fromR
  /-- `#0IF` (R143) -/
  | skipIfZero
  /-- `$HWIO` (R144) -/
  | hwio
deriving DecidableEq, Repr

/-- The position of a primitive in R56's table, 0 to 30: its index into `PRIM_CODE`. The four operand-carrying classes are no
primitives. -/
def Instr.primNumber : Instr → Option Nat
  | .lit _ => none
  | .call _ => none
  | .bra _ => none
  | .bz _ => none
  | .fetch => some 0
  | .store => some 1
  | .cFetch => some 2
  | .cStore => some 3
  | .plusStore => some 4
  | .plus => some 5
  | .minus => some 6
  | .times => some 7
  | .divide => some 8
  | .bitAnd => some 9
  | .bitOr => some 10
  | .bitXor => some 11
  | .bitNot => some 12
  | .zeroEqual => some 13
  | .zeroGreater => some 14
  | .zeroLess => some 15
  | .negate => some 16
  | .onePlus => some 17
  | .oneMinus => some 18
  | .twoStar => some 19
  | .twoSlash => some 20
  | .dup => some 21
  | .overCell => some 22
  | .swap => some 23
  | .rot => some 24
  | .drop => some 25
  | .semi => some 26
  | .toR => some 27
  | .fromR => some 28
  | .skipIfZero => some 29
  | .hwio => some 30

end Sys2Proof
end

