-- ==== Sys2Proof/WellFormed.lean ====
section
/-! DEFINITION. What makes a configuration legal (the constraints of R5) and an instruction encodable under it. The operand fields
are bit vectors of their exact widths, so every operand is in range by its type. -/

namespace Sys2Proof

/-- R5: `PRIM_CODE` is an injective map from the 31 primitives to 8-bit codes. -/
def primCodesWf (codes : List Byte) : Bool :=
  decide (codes.length = numPrims) && decide codes.Nodup

/-- R5: an address parameter is a multiple of 4. -/
def wordAligned (a : Word) : Bool :=
  decide (a &&& 3#32 = 0#32)

/-- R5, D6: the two stack windows `[DS_LIMIT, RST_DSP)` and `[RS_LIMIT, RST_RSP)` are disjoint. DESIGN CHOICE: they are compared as ranges
of 32-bit addresses, before the wrap modulo 2^20 of R31, so windows 2^20 apart that name the same cells are legal; the spec does not say
which of the two is meant (log 22). DESIGN CHOICE: one window must end at or below the start of the other, so an empty window strictly inside
the other is refused, although as ranges the two share no address (log 23). -/
def Config.windowsDisjoint (c : Config) : Bool :=
  decide (c.rstDsp.toNat ≤ c.rsLimit.toNat) || decide (c.rstRsp.toNat ≤ c.dsLimit.toNat)

/-- R5: each limit lies at or below its reset pointer, so that the window is a range of addresses. DESIGN CHOICE: a
window may be empty, its limit equal to its reset pointer; the spec is silent (log 23). -/
def Config.windowsOrdered (c : Config) : Bool :=
  decide (c.dsLimit.toNat ≤ c.rstDsp.toNat) && decide (c.rsLimit.toNat ≤ c.rstRsp.toNat)

/-- R5: `1 <= CYCLES_PER_FRAME < 2^31`. -/
def Config.budgetInRange (c : Config) : Bool :=
  decide (1 ≤ c.cyclesPerFrame.toNat) && decide (c.cyclesPerFrame.toNat < 2 ^ 31)

/-- R5: every constraint on the configuration. -/
def Config.wf (c : Config) : Bool :=
  primCodesWf c.primCodes &&
  (wordAligned c.rstDsp && wordAligned c.rstRsp && wordAligned c.dsLimit && wordAligned c.rsLimit) &&
  (c.windowsOrdered && c.windowsDisjoint) &&
  (c.budgetInRange && decide (c.frameRate ≠ 0#32))

/-- An instruction is well formed under a `PRIM_CODE` when its word decodes to nothing else: a primitive has a code, and no other
primitive has the same one (R5's injectivity, for this one primitive). The operands of the other classes always fit. -/
def Instr.wf (codes : List Byte) (i : Instr) : Bool :=
  match i.primNumber with
  | none => true
  | some k =>
    match codes[k]? with
    | none => false
    | some c => decide (c ∉ codes.take k)

end Sys2Proof
end

