-- ==== Sys2Proof/Decode.lean ====
section
/-! DEFINITION. Byte order of a word, the decoder (total, rejecting by name), the encoder, and the host's decoding of a table word. -/

namespace Sys2Proof

/-! ## Byte order (R33) -/

/-- R33: the word made of the four bytes at rising addresses. -/
def wordOfBytes (order : ByteOrder) (b0 b1 b2 b3 : Byte) : Word :=
  match order with
  | .little => b3 ++ b2 ++ b1 ++ b0
  | .big => b0 ++ b1 ++ b2 ++ b3

/-- R33: the byte of a word that lies `k` bytes above the word's lowest address, `k` = 0 to 3. -/
def byteOfWord (order : ByteOrder) (w : Word) (k : Nat) : Byte :=
  match order with
  | .little => w.extractLsb' (8 * k) 8
  | .big => w.extractLsb' (24 - 8 * k) 8

/-! ## Fields (R51 to R54) -/

/-- R51: the class nibble, bits 31 to 28. -/
def classOf (ir : Word) : BitVec 4 := ir.extractLsb' 28 4

/-- R52: `imm31`, bits 30 to 0. -/
def imm31Of (ir : Word) : BitVec 31 := ir.extractLsb' 0 31

/-- R53: `off28`, bits 27 to 0. -/
def off28Of (ir : Word) : BitVec 28 := ir.extractLsb' 0 28

/-- R54: `code`, bits 7 to 0; bits 27 to 8 are ignored. -/
def codeOf (ir : Word) : Byte := ir.extractLsb' 0 8

/-! ## Decoding -/

/-- Why the decoder refuses a word: the two undefined regions of R57 and R58. -/
inductive Reject where
  /-- R57: classes 11 to 14 -/
  | reservedClass (ir : Word)
  /-- R58: class 15 with a code `PRIM_CODE` does not assign -/
  | reservedPrimitive (code : Byte)
deriving DecidableEq, Repr

/-- R56: the 31 primitives in the order of the table. -/
def primInstrs : List Instr :=
  [.fetch, .store, .cFetch, .cStore, .plusStore,
   .plus, .minus, .times, .divide, .bitAnd, .bitOr, .bitXor, .bitNot,
   .zeroEqual, .zeroGreater, .zeroLess, .negate, .onePlus, .oneMinus, .twoStar, .twoSlash,
   .dup, .overCell, .swap, .rot, .drop,
   .semi, .toR, .fromR, .skipIfZero, .hwio]

/-- R56: `PRIM_CODE^-1`, the primitive a code is assigned to. -/
def primOfCode (codes : List Byte) (code : Byte) : Option Instr :=
  ((primInstrs.zip codes).find? (fun p => decide (p.2 = code))).map Prod.fst

/-- R55, R70: decode one instruction word under a `PRIM_CODE`. -/
def decodeWord (codes : List Byte) (ir : Word) : Except Reject Instr :=
  if (classOf ir).toNat ≤ 7 then .ok (.lit (imm31Of ir))
  else if classOf ir = 8#4 then .ok (.call (off28Of ir))
  else if classOf ir = 9#4 then .ok (.bra (off28Of ir))
  else if classOf ir = 10#4 then .ok (.bz (off28Of ir))
  else if classOf ir = 15#4 then
    match primOfCode codes (codeOf ir) with
    | some i => .ok i
    | none => .error (.reservedPrimitive (codeOf ir))
  else .error (.reservedClass ir)

/-- R50: decode from a byte stream: four bytes make one instruction, the rest is handed back. `none`: fewer than four bytes, no
instruction. -/
def decodeBytes (codes : List Byte) (order : ByteOrder) : List Byte → Option (Except Reject Instr × List Byte)
  | b0 :: b1 :: b2 :: b3 :: rest => some (decodeWord codes (wordOfBytes order b0 b1 b2 b3), rest)
  | _ => none

/-! ## Encoding -/

/-- R54: the canonical word of a primitive, `0xF0000000 | code`. -/
def primWord (codes : List Byte) (k : Nat) : Word := 0xF00000#24 ++ codes.getD k 0#8

/-- R52, R53, R54, R60: the canonical word of an instruction. -/
def encode (codes : List Byte) (i : Instr) : Word :=
  match i with
  | .lit imm => 0#1 ++ imm
  | .call off => 8#4 ++ off
  | .bra off => 9#4 ++ off
  | .bz off => 10#4 ++ off
  | .fetch => primWord codes 0
  | .store => primWord codes 1
  | .cFetch => primWord codes 2
  | .cStore => primWord codes 3
  | .plusStore => primWord codes 4
  | .plus => primWord codes 5
  | .minus => primWord codes 6
  | .times => primWord codes 7
  | .divide => primWord codes 8
  | .bitAnd => primWord codes 9
  | .bitOr => primWord codes 10
  | .bitXor => primWord codes 11
  | .bitNot => primWord codes 12
  | .zeroEqual => primWord codes 13
  | .zeroGreater => primWord codes 14
  | .zeroLess => primWord codes 15
  | .negate => primWord codes 16
  | .onePlus => primWord codes 17
  | .oneMinus => primWord codes 18
  | .twoStar => primWord codes 19
  | .twoSlash => primWord codes 20
  | .dup => primWord codes 21
  | .overCell => primWord codes 22
  | .swap => primWord codes 23
  | .rot => primWord codes 24
  | .drop => primWord codes 25
  | .semi => primWord codes 26
  | .toR => primWord codes 27
  | .fromR => primWord codes 28
  | .skipIfZero => primWord codes 29
  | .hwio => primWord codes 30

/-- R54, opcode_table.json: the bits of a word its decoding depends on. Bits 27 to 8 of a primitive are ignored. -/
def significantBits (i : Instr) : Word :=
  match i.primNumber with
  | none => 0xFFFFFFFF#32
  | some _ => 0xF00000FF#32

/-- The word's four bytes as they lie in memory, lowest address first (R33, R46). -/
def bytesOfWord (order : ByteOrder) (w : Word) : List Byte :=
  [byteOfWord order w 0, byteOfWord order w 1, byteOfWord order w 2, byteOfWord order w 3]

/-- What the decoder reads from an instruction whose bits are `w`, numbered as spec/opcode_table.json numbers them: the word is laid
out in memory's byte order and decoded under the reference configuration. Every instruction has 32 bits (R50). -/
def decodeTableWord (nbits w : Nat) : Option Instr :=
  match decodeBytes Config.ref.primCodes Config.ref.byteOrder
      (bytesOfWord Config.ref.byteOrder (BitVec.ofNat 32 (w % 2 ^ nbits))) with
  | some (.ok i, _) => some i
  | _ => none

end Sys2Proof
end

