-- ==== Sys2Proof/Machine/State.lean ====
section
/-! DEFINITION. The state of the vforth core (R10), the reasons a step or a host call can stop, and the state after Reset (R180). -/

namespace Sys2Proof.Machine

/-- The memory of 2^20 bytes (R20, R30): the listed bytes in rising address order; every unlisted address reads as `unlistedByte`. -/
abbrev Memory := List Host.Cell

/-- What a byte nothing has written reads as. DESIGN CHOICE, unsafe: INIT_MEM is open (R181, U9); CFG-REF has zeros (log 2). -/
def unlistedByte : Byte := 0#8

/-- R145, R167: one call the core makes on the hardware I/O bridge, with its argument. -/
inductive BridgeCall where
  /-- `Bridge.Reset()`, by the Reset operation -/
  | reset
  /-- `Bridge.GetKey()`, by `$HWIO` command 0 -/
  | getKey
  /-- `Bridge.SetScreenWriteAddress(addr)`, by `$HWIO` command 1 -/
  | setScreenWriteAddress (addr : Word)
  /-- `Bridge.WriteScreenMemory(value)`, by `$HWIO` command 2 -/
  | writeScreenMemory (value : Word)
deriving DecidableEq, Repr

/-- The whole state of the core (R10), then the model's own fields. -/
structure State where
  /-- R11: program counter, bits 31:20 and 1:0 always zero -/
  pc : Word
  /-- R14: data stack pointer, the byte address of the top cell; not masked (R16) -/
  dsp : Word
  /-- R15: return stack pointer; not masked (R16) -/
  rsp : Word
  /-- R18: instructions completed in the current frame window -/
  cycles : Word
  /-- R20: the memory, which holds both stacks -/
  mem : Memory
  /-- R19: the core has stopped on a fatal condition -/
  halted : Bool
  /-- R19: its cause; unspecified while `halted` is false -/
  haltCause : HaltCause
  /-- R19: its diagnostic value; unspecified while `halted` is false -/
  haltInfo : Word
  /-- MODEL'S OWN: the configuration of R5, a parameter of the step relation (R10). Nothing writes it (log 1). -/
  cfg : Config
  /-- MODEL'S OWN: what the last `Step()` returned, 0 or the frame signal (R70; log 6) -/
  signal : Word
  /-- MODEL'S OWN: the bridge calls made so far, oldest first: the core's observable output (R145; log 10) -/
  bridgeCalls : List BridgeCall
  /-- MODEL'S OWN: the answers the bridge has ready for the next `GetKey` calls, an input nothing constrains (R145; log 9) -/
  keyAnswers : List (Option Word)
  /-- MODEL'S OWN: how many free values have been drawn (log 3) -/
  draws : Nat
deriving DecidableEq, Repr

/-- R150: the faults of the machine. A state with `halted` = 1 counts as a fault (R153). NO STEP ANSWERS `Outcome.fault`: the fatal
condition is taken, as a next state in which `halted` = 1 (log 4). -/
inductive Fault where
  /-- The fatal condition a halted state reports. Raised by `State.fault?` (Safety.lean), which reads the halted record. Safe: it
  says that the run is faulted and never final. -/
  | fatal (cause : HaltCause) (info : Word)
deriving DecidableEq, Repr

/-- Why the model gives something no meaning. -/
inductive Refusal where
  /-- Raised by `exec`'s arm of an instruction that has no meaning yet (none is left). Safe: nothing can be claimed of it. -/
  | notModelled (mnemonic : String)
  /-- Raised by the host session for Step or Execute before the first Reset (R181, U8). Safe: the spec gives it no meaning. -/
  | beforeFirstReset
  /-- Raised by the host session for an image longer than 2^20 bytes (R182, U17). Safe: the spec says that a model refuses it. -/
  | imageTooLong
  /-- Raised by the host session when Execute cannot return because FRAME_RATE is 0 (R5 excludes it; log 13). Safe: such a
  configuration is outside the spec. -/
  | illegalConfig
deriving DecidableEq, Repr

/-- The machine right after Reset (R180), under the reference configuration and with a memory that lists nothing: the entry slot reads
0, so `pc` = (RELOC_BASE + 0) & PCMASK = 0, and the pushed RELOC_BASE = 0 at RST_DSP - 4 is no listed byte. `haltCause` and `haltInfo`
are DESIGN CHOICES (log 8); the OPEN parameters are CFG-REF's (log 1). -/
def State.reset : State where
  pc := 0#32
  dsp := 0x000FEFFC#32
  rsp := 0x000FFFF0#32
  cycles := 0#32
  mem := []
  halted := false
  haltCause := .misalignedWordAccess
  haltInfo := 0#32
  cfg := Config.ref
  signal := 0#32
  bridgeCalls := [.reset]
  keyAnswers := []
  draws := 0

end Sys2Proof.Machine
end

