-- ==== Sys2Proof/Machine/Ops.lean ====
section
/-! DEFINITION. The named operations: memory, the program counter, the two stacks, the bridge, the fatal condition, the step's own
parts, and Reset. -/

namespace Sys2Proof.Machine

/-! ## Memory (R30 to R34, R46) -/

/-- R32: the byte index `addr[19:0]`. -/
def byteIndex (addr : Word) : Nat := (addr.extractLsb' 0 20).toNat

/-- R31: the byte index of the lowest byte of the word whose index is `addr[19:2]`. -/
def wordBase (addr : Word) : Nat := 4 * (addr.extractLsb' 2 18).toNat

/-- The byte stored at a byte index. -/
def Memory.byteAt (m : Memory) (k : Nat) : Byte :=
  match m with
  | [] => unlistedByte
  | (a, b) :: rest => if a = k then b else Memory.byteAt rest k

/-- Store a byte, keeping the canonical form: addresses rising, and no entry for a byte equal to `unlistedByte`. -/
def Memory.putByte (m : Memory) (k : Nat) (v : Byte) : Memory :=
  match m with
  | [] => if v = unlistedByte then [] else [(k, v)]
  | (a, b) :: rest =>
    if k < a then (if v = unlistedByte then (a, b) :: rest else (k, v) :: (a, b) :: rest)
    else if k = a then (if v = unlistedByte then rest else (a, v) :: rest)
    else (a, b) :: Memory.putByte rest k v

/-- The addresses of `m` are strictly rising and not below `low`, lie inside the memory, and no entry equals `unlistedByte`. -/
def Memory.wfFrom (low : Nat) (m : Memory) : Bool :=
  match m with
  | [] => true
  | (a, b) :: rest => decide (low ≤ a) && decide (a < memBytes) && decide (b ≠ unlistedByte) && Memory.wfFrom (a + 1) rest

/-- The canonical form of a memory: equal memories are equal lists. -/
def Memory.wf (m : Memory) : Bool := Memory.wfFrom 0 m

/-- R31, R33: the word made of the four bytes from byte index `base` up. -/
def Memory.wordAt (order : ByteOrder) (m : Memory) (base : Nat) : Word :=
  wordOfBytes order (m.byteAt base) (m.byteAt (base + 1)) (m.byteAt (base + 2)) (m.byteAt (base + 3))

/-- R31, R33: store the four bytes of a word from byte index `base` up. -/
def Memory.putWord (order : ByteOrder) (m : Memory) (base : Nat) (v : Word) : Memory :=
  (((m.putByte base (byteOfWord order v 0)).putByte (base + 1) (byteOfWord order v 1)).putByte
    (base + 2) (byteOfWord order v 2)).putByte (base + 3) (byteOfWord order v 3)

/-- R32: `MemRead(addr, 1)`. -/
def readByte (s : State) (addr : Word) : Byte := s.mem.byteAt (byteIndex addr)

/-- R31: `MemRead(addr, 4)`. -/
def readWord (s : State) (addr : Word) : Word := s.mem.wordAt s.cfg.byteOrder (wordBase addr)

/-- R32: `MemWrite(addr, 1, v)`. -/
def writeByte (addr : Word) (v : Byte) (s : State) : State :=
  { s with mem := s.mem.putByte (byteIndex addr) v }

/-- R31: `MemWrite(addr, 4, v)`. -/
def writeWord (addr v : Word) (s : State) : State :=
  { s with mem := s.mem.putWord s.cfg.byteOrder (wordBase addr) v }

/-! ## The program counter (R11 to R13) -/

/-- R11: every write of `pc` applies PCMASK. -/
def writePc (target : Word) (s : State) : State := { s with pc := target &&& pcMask }

/-- R12, R70: the fetch's advance, which wraps at the top of memory. -/
def advancePc (s : State) : State := writePc (s.pc + 4#32) s

/-! ## The stacks (R37, R38): unchecked, with wrapping pointers (R16) -/

/-- `PushD(v)`. -/
def pushD (v : Word) (s : State) : State := writeWord (s.dsp - 4#32) v { s with dsp := s.dsp - 4#32 }

/-- The value `PopD()` returns: the top cell. -/
def topD (s : State) : Word := readWord s s.dsp

/-- The state `PopD()` leaves: memory is not changed. -/
def dropD (s : State) : State := { s with dsp := s.dsp + 4#32 }

/-- `PushR(v)`. -/
def pushR (v : Word) (s : State) : State := writeWord (s.rsp - 4#32) v { s with rsp := s.rsp - 4#32 }

/-- The value `PopR()` returns. -/
def topR (s : State) : Word := readWord s s.rsp

/-- The state `PopR()` leaves. -/
def dropR (s : State) : State := { s with rsp := s.rsp + 4#32 }

/-! ## The bridge (R144, R145, R167) -/

/-- A call on the bridge, appended to the core's output. -/
def callBridge (c : BridgeCall) (s : State) : State := { s with bridgeCalls := s.bridgeCalls ++ [c] }

/-- R145: what the next `Bridge.GetKey()` answers: the environment's next answer, or a free value when it has none ready. -/
def keyAnswer (s : State) : Option Word :=
  match s.keyAnswers with
  | k :: _ => k
  | [] => Config.freeKey s.draws

/-- The state after the answer is taken. -/
def takeKey (s : State) : State :=
  match s.keyAnswers with
  | _ :: rest => { s with keyAnswers := rest }
  | [] => { s with draws := s.draws + 1 }

/-! ## The fatal condition (R150 to R154) -/

/-- R153: the cells being popped hold unspecified values: free values number `n` and on. -/
def forgetCells (order : ByteOrder) (m : Memory) (cells : List Word) (n : Nat) : Memory :=
  match cells with
  | [] => m
  | a :: rest => forgetCells order (m.putWord order (wordBase a) (Config.freeWord n)) rest (n + 1)

/-- `raise Fatal.<cause>(info)` (R153), by an instruction that was popping the cells at the addresses `cells`: the core enters the halted
state; `pc` (within its hardwired mask, log 7), `dsp`, `rsp`, `cycles`, what the step returns (log 5) and the popped cells are free
values. -/
def raiseFatal (cause : HaltCause) (info : Word) (cells : List Word) (s : State) : State :=
  { s with
    halted := true
    haltCause := cause
    haltInfo := info
    pc := Config.freeWord s.draws &&& pcMask
    dsp := Config.freeWord (s.draws + 1)
    rsp := Config.freeWord (s.draws + 2)
    cycles := Config.freeWord (s.draws + 3)
    signal := Config.freeWord (s.draws + 4)
    mem := forgetCells s.cfg.byteOrder s.mem cells (s.draws + 5)
    draws := s.draws + 5 + cells.length }

/-- R57, R58: the fatal condition of a word the decoder rejects; nothing is popped (R155). -/
def raiseReject (r : Reject) (s : State) : State :=
  match r with
  | .reservedClass ir => raiseFatal .reservedClass ir [] s
  | .reservedPrimitive code => raiseFatal .reservedPrimitive (code.setWidth 32) [] s

/-! ## The step's own parts (R70, R154) -/

/-- R70: the instruction word at `pc`. -/
def fetchWord (s : State) : Word := readWord s s.pc

/-- R70: count the completed instruction; at the budget, reduce the counter and signal the frame. -/
def countCycle (s : State) : State :=
  if s.cfg.cyclesPerFrame.toNat ≤ (s.cycles + 1#32).toNat then
    { s with cycles := s.cycles + 1#32 - s.cfg.cyclesPerFrame, signal := s.cfg.frameRate }
  else { s with cycles := s.cycles + 1#32, signal := 0#32 }

/-- R70, R153: the statements after the dispatch, which do not run when the instruction raised a fatal condition. -/
def finishStep (s : State) : State := if s.halted then s else countCycle s

/-- R154: a step while halted changes nothing and returns 0. -/
def haltedStep (s : State) : State := { s with signal := 0#32 }

/-! ## Reset (R180) -/

/-- R180: the Reset operation, from any state. `haltCause` and `haltInfo` are unspecified after it: free values (log 8). -/
def resetOp (s : State) : State :=
  callBridge .reset
    (pushD s.cfg.relocBase
      { s with
        halted := false
        cycles := 0#32
        dsp := s.cfg.rstDsp
        rsp := s.cfg.rstRsp
        pc := (s.cfg.relocBase + readWord s entrySlot) &&& pcMask
        haltCause := Config.freeCause s.draws
        haltInfo := Config.freeWord (s.draws + 1)
        signal := 0#32
        draws := s.draws + 2 })

end Sys2Proof.Machine
end

