-- ==== Sys2Proof/Machine/Flags.lean ====
section
/-! DEFINITION. The machine has no status flags (R17, R100): what other machines keep in flags, this one leaves on the stack as a
boolean cell (R117). -/

namespace Sys2Proof.Machine

/-- R117: TRUE = all bits set, FALSE = all bits clear. -/
def flagCell (b : Bool) : Word := if b then 0xFFFFFFFF#32 else 0x00000000#32

/-- R109: `a = 0`. -/
def isZero (a : Word) : Bool := decide (a = 0#32)

/-- R110: sign bit clear and value nonzero. -/
def isPositive (a : Word) : Bool := !a.getLsbD 31 && decide (a ≠ 0#32)

/-- R111: sign bit set. -/
def isNegative (a : Word) : Bool := a.getLsbD 31

end Sys2Proof.Machine
end

