-- ==== Sys2Proof/Machine/Operands.lean ====
section
/-! DEFINITION. The operand forms: the literal (R52), the relative target (R53), and the operands popped from the data stack (R95, R118,
R119). -/

namespace Sys2Proof.Machine

/-- R52: `sext_31(imm31)`: bit 30 copied into bit 31. -/
def literalValue (imm31 : BitVec 31) : Word := imm31.signExtend 32

/-- R53: `(pc + off28) & PCMASK`, where `pc` is already advanced. -/
def relativeTarget (pc : Word) (off28 : BitVec 28) : Word := (pc + off28.setWidth 32) &&& pcMask

/-- The second cell of the data stack, `D[1]`. -/
def secondD (s : State) : Word := topD (dropD s)

/-- The third cell of the data stack, `D[2]`. -/
def thirdD (s : State) : Word := topD (dropD (dropD s))

/-- R35: the alignment test of `@`, `!` and `+!`, on the full 32-bit popped address. -/
def misaligned (addr : Word) : Bool := decide (addr &&& 3#32 ≠ 0#32)

/-- R118: pop `b`, pop `a`, push `f a b`. -/
def binaryOp (f : Word → Word → Word) (s : State) : State :=
  pushD (f (secondD s) (topD s)) (dropD (dropD s))

/-- R119: pop `a`, push `f a`. -/
def unaryOp (f : Word → Word) (s : State) : State := pushD (f (topD s)) (dropD s)

end Sys2Proof.Machine
end

