-- ==== Sys2Proof/Machine/Arith.lean ====
section
/-! DEFINITION. Arithmetic, logic and zero tests (42_prim_arith_logic.md). -/

namespace Sys2Proof.Machine

/-- R104: signed division, rounded toward zero; by zero 0; the one overflowing pair is the parameter DIV_MIN_NEG1. -/
def quotient (divMinNeg1 a b : Word) : Word :=
  if b = 0#32 then 0#32
  else if a = 0x80000000#32 ∧ b = 0xFFFFFFFF#32 then divMinNeg1
  else BitVec.ofInt 32 (Int.tdiv a.toInt b.toInt)

/-- `+` (R101). -/
def execPlus (s : State) : Host.Outcome State Fault Refusal := .next (binaryOp (fun a b => a + b) s)

/-- `-` (R102): second minus top. -/
def execMinus (s : State) : Host.Outcome State Fault Refusal := .next (binaryOp (fun a b => a - b) s)

/-- `*` (R103): the low 32 bits of the product. -/
def execTimes (s : State) : Host.Outcome State Fault Refusal := .next (binaryOp (fun a b => a * b) s)

/-- `/` (R104): second divided by top. -/
def execDivide (s : State) : Host.Outcome State Fault Refusal := .next (binaryOp (quotient s.cfg.divMinNeg1) s)

/-- `AND` (R105). -/
def execAnd (s : State) : Host.Outcome State Fault Refusal := .next (binaryOp (fun a b => a &&& b) s)

/-- `OR` (R106). -/
def execOr (s : State) : Host.Outcome State Fault Refusal := .next (binaryOp (fun a b => a ||| b) s)

/-- `XOR` (R107). -/
def execXor (s : State) : Host.Outcome State Fault Refusal := .next (binaryOp (fun a b => a ^^^ b) s)

/-- `NOT` (R108). -/
def execNot (s : State) : Host.Outcome State Fault Refusal := .next (unaryOp (fun a => ~~~a) s)

/-- `0=` (R109): the tested cell is replaced (R117). -/
def execZeroEqual (s : State) : Host.Outcome State Fault Refusal := .next (unaryOp (fun a => flagCell (isZero a)) s)

/-- `0>` (R110). -/
def execZeroGreater (s : State) : Host.Outcome State Fault Refusal := .next (unaryOp (fun a => flagCell (isPositive a)) s)

/-- `0<` (R111). -/
def execZeroLess (s : State) : Host.Outcome State Fault Refusal := .next (unaryOp (fun a => flagCell (isNegative a)) s)

/-- `0-` (R112). -/
def execNegate (s : State) : Host.Outcome State Fault Refusal := .next (unaryOp (fun a => 0#32 - a) s)

/-- `1+` (R113). -/
def execOnePlus (s : State) : Host.Outcome State Fault Refusal := .next (unaryOp (fun a => a + 1#32) s)

/-- `1-` (R114). -/
def execOneMinus (s : State) : Host.Outcome State Fault Refusal := .next (unaryOp (fun a => a - 1#32) s)

/-- `2*` (R115): logical shift left by one. -/
def execTwoStar (s : State) : Host.Outcome State Fault Refusal := .next (unaryOp (fun a => a <<< 1) s)

/-- `2/` (R116): logical shift right by one, top bit cleared. -/
def execTwoSlash (s : State) : Host.Outcome State Fault Refusal := .next (unaryOp (fun a => a >>> 1) s)

end Sys2Proof.Machine
end

