-- ==== Sys2Proof/Machine/Control.lean ====
section
/-! DEFINITION. The literal and relative classes (40_step_literal_control.md). `pc` is already the address of the next instruction. -/

namespace Sys2Proof.Machine

/-- `LIT` (R71). -/
def execLit (imm31 : BitVec 31) (s : State) : Host.Outcome State Fault Refusal :=
  .next (pushD (literalValue imm31) s)

/-- `CALL` (R72): the return address is the advanced `pc`. -/
def execCall (off28 : BitVec 28) (s : State) : Host.Outcome State Fault Refusal :=
  .next (writePc (relativeTarget s.pc off28) (pushR s.pc s))

/-- `BRA` (R73). -/
def execBra (off28 : BitVec 28) (s : State) : Host.Outcome State Fault Refusal :=
  .next (writePc (relativeTarget s.pc off28) s)

/-- `BZ` (R74): the cell is popped whether or not the branch is taken. -/
def execBz (off28 : BitVec 28) (s : State) : Host.Outcome State Fault Refusal :=
  .next (if isZero (topD s) then writePc (relativeTarget s.pc off28) (dropD s) else dropD s)

end Sys2Proof.Machine
end

