-- ==== Sys2Proof/Machine/MemoryPrims.lean ====
section
/-! DEFINITION. The memory primitives (41_prim_memory.md): the address is the popped top cell, the datum the second (R95). -/

namespace Sys2Proof.Machine

/-- `@` (R90). -/
def execFetch (s : State) : Host.Outcome State Fault Refusal :=
  if misaligned (topD s) then .next (raiseFatal .misalignedWordAccess (topD s) [s.dsp] s)
  else .next (pushD (readWord s (topD s)) (dropD s))

/-- `!` (R91). -/
def execStore (s : State) : Host.Outcome State Fault Refusal :=
  if misaligned (topD s) then .next (raiseFatal .misalignedWordAccess (topD s) [s.dsp, s.dsp + 4#32] s)
  else .next (writeWord (topD s) (secondD s) (dropD (dropD s)))

/-- `C@` (R92): the byte is zero-extended. -/
def execCFetch (s : State) : Host.Outcome State Fault Refusal :=
  .next (pushD ((readByte s (topD s)).setWidth 32) (dropD s))

/-- `C!` (R93): the value is truncated to 8 bits. -/
def execCStore (s : State) : Host.Outcome State Fault Refusal :=
  .next (writeByte (topD s) ((secondD s).setWidth 8) (dropD (dropD s)))

/-- `+!` (R94): the sum wraps. -/
def execPlusStore (s : State) : Host.Outcome State Fault Refusal :=
  if misaligned (topD s) then .next (raiseFatal .misalignedWordAccess (topD s) [s.dsp, s.dsp + 4#32] s)
  else .next (writeWord (topD s) (readWord s (topD s) + secondD s) (dropD (dropD s)))

end Sys2Proof.Machine
end

