-- ==== Sys2Proof/Machine/ReturnIo.lean ====
section
/-! DEFINITION. Return, transfers between the stacks, conditional skip, hardware I/O (44_prim_return_skip_io.md). -/

namespace Sys2Proof.Machine

/-- `;` (R140): any popped cell is accepted and masked. -/
def execSemi (s : State) : Host.Outcome State Fault Refusal := .next (writePc (topR s) (dropR s))

/-- `>R` (R141). -/
def execToR (s : State) : Host.Outcome State Fault Refusal := .next (pushR (topD s) (dropD s))

/-- `R>` (R142). -/
def execFromR (s : State) : Host.Outcome State Fault Refusal := .next (pushD (topR s) (dropR s))

/-- `#0IF` (R143): the next instruction is skipped when the popped cell is zero. -/
def execSkipIfZero (s : State) : Host.Outcome State Fault Refusal :=
  .next (if isZero (topD s) then writePc (s.pc + 4#32) (dropD s) else dropD s)

/-- `$HWIO` command 0 (R144): push the key code, or 0 when none is pending. `s` is the state after `cmd` is popped. -/
def hwioGetKey (s : State) : State :=
  pushD ((keyAnswer s).getD 0#32) (takeKey (callBridge .getKey s))

/-- `$HWIO` (R144): the command is compared as a full cell. -/
def execHwio (s : State) : Host.Outcome State Fault Refusal :=
  if topD s = 0#32 then .next (hwioGetKey (dropD s))
  else if topD s = 1#32 then .next (callBridge (.setScreenWriteAddress (secondD s)) (dropD (dropD s)))
  else if topD s = 2#32 then .next (callBridge (.writeScreenMemory (secondD s)) (dropD (dropD s)))
  else .next (raiseFatal .reservedHwioCommand (topD s) [s.dsp] s)

end Sys2Proof.Machine
end

