-- ==== Sys2Proof/Machine/Shuffle.lean ====
section
/-! DEFINITION. The data stack shuffles (43_prim_stack.md), by pops and pushes only (R135). -/

namespace Sys2Proof.Machine

/-- `DUP` (R130): `( a -- a a )`. -/
def execDup (s : State) : Host.Outcome State Fault Refusal :=
  .next (pushD (topD s) (pushD (topD s) (dropD s)))

/-- `OVER` (R131): `( a b -- a b a )`. -/
def execOver (s : State) : Host.Outcome State Fault Refusal :=
  .next (pushD (secondD s) (pushD (topD s) (pushD (secondD s) (dropD (dropD s)))))

/-- `SWAP` (R132): `( a b -- b a )`. -/
def execSwap (s : State) : Host.Outcome State Fault Refusal :=
  .next (pushD (secondD s) (pushD (topD s) (dropD (dropD s))))

/-- `ROT` (R133): `( a b c -- b c a )`. -/
def execRot (s : State) : Host.Outcome State Fault Refusal :=
  .next (pushD (thirdD s) (pushD (topD s) (pushD (secondD s) (dropD (dropD (dropD s))))))

/-- `DROP` (R134): `( a -- )`; memory is unchanged. -/
def execDrop (s : State) : Host.Outcome State Fault Refusal := .next (dropD s)

end Sys2Proof.Machine
end

