-- ==== Sys2Proof/Machine/Dispatch.lean ====
section
/-! DEFINITION. The dispatch: one arm per instruction (R55, R56, R70). `s` is the state after the fetch and the advance of `pc`. -/

namespace Sys2Proof.Machine

def exec (i : Instr) (s : State) : Host.Outcome State Fault Refusal :=
  match i with
  | .lit imm31 => Sys2Proof.Machine.execLit imm31 s
  | .call off28 => Sys2Proof.Machine.execCall off28 s
  | .bra off28 => Sys2Proof.Machine.execBra off28 s
  | .bz off28 => Sys2Proof.Machine.execBz off28 s
  | .fetch => Sys2Proof.Machine.execFetch s
  | .store => Sys2Proof.Machine.execStore s
  | .cFetch => Sys2Proof.Machine.execCFetch s
  | .cStore => Sys2Proof.Machine.execCStore s
  | .plusStore => Sys2Proof.Machine.execPlusStore s
  | .plus => Sys2Proof.Machine.execPlus s
  | .minus => Sys2Proof.Machine.execMinus s
  | .times => Sys2Proof.Machine.execTimes s
  | .divide => Sys2Proof.Machine.execDivide s
  | .bitAnd => Sys2Proof.Machine.execAnd s
  | .bitOr => Sys2Proof.Machine.execOr s
  | .bitXor => Sys2Proof.Machine.execXor s
  | .bitNot => Sys2Proof.Machine.execNot s
  | .zeroEqual => Sys2Proof.Machine.execZeroEqual s
  | .zeroGreater => Sys2Proof.Machine.execZeroGreater s
  | .zeroLess => Sys2Proof.Machine.execZeroLess s
  | .negate => Sys2Proof.Machine.execNegate s
  | .onePlus => Sys2Proof.Machine.execOnePlus s
  | .oneMinus => Sys2Proof.Machine.execOneMinus s
  | .twoStar => Sys2Proof.Machine.execTwoStar s
  | .twoSlash => Sys2Proof.Machine.execTwoSlash s
  | .dup => Sys2Proof.Machine.execDup s
  | .overCell => Sys2Proof.Machine.execOver s
  | .swap => Sys2Proof.Machine.execSwap s
  | .rot => Sys2Proof.Machine.execRot s
  | .drop => Sys2Proof.Machine.execDrop s
  | .semi => Sys2Proof.Machine.execSemi s
  | .toR => Sys2Proof.Machine.execToR s
  | .fromR => Sys2Proof.Machine.execFromR s
  | .skipIfZero => Sys2Proof.Machine.execSkipIfZero s
  | .hwio => Sys2Proof.Machine.execHwio s

end Sys2Proof.Machine
end

