-- ==== Sys2Proof/Machine/Step.lean ====
section
/-! DEFINITION. One step of the machine (R70), and the placing of an instruction where the next step fetches it. -/

namespace Sys2Proof.Machine

/-- R70, R154: `Step()`. What it returns stands in the next state's `signal` (log 6). -/
def step (s : State) : Host.Outcome State Fault Refusal :=
  if s.halted then .next (haltedStep s)
  else
    match decodeWord s.cfg.primCodes (fetchWord s) with
    | .error r => .next (raiseReject r (advancePc s))
    | .ok i =>
      match exec i (advancePc s) with
      | .next t => .next (finishStep t)
      | .fault f => .fault f
      | .refused r => .refused r

/-- The state with the instruction word `w` stored at `pc`, where the next step fetches, and not halted (a halted core fetches
nothing, R154). -/
def State.withFetchWord (s : State) (nbits w : Nat) : State :=
  let stored := writeWord s.pc (BitVec.ofNat 32 (w % 2 ^ nbits)) s
  { stored with halted := false }

end Sys2Proof.Machine
end

