-- ==== Sys2Proof/Machine/HostOps.lean ====
section
/-! DEFINITION. The host's operations between steps: status, peek, poke, step-over, the driver, the image load, and the session that keeps
their order (60_exceptions.md, 70_reset_and_hazards.md, R24). -/

namespace Sys2Proof.Machine

/-! ## Status, debug access (R24, R163, R165) -/

/-- R24: the status snapshot, with the halt record. -/
structure Snapshot where
  pc : Word
  dsp : Word
  rsp : Word
  cycles : Word
  halted : Bool
  haltCause : HaltCause
  haltInfo : Word
deriving DecidableEq, Repr

/-- R24: Status reads the registers and changes nothing. -/
def status (s : State) : Snapshot where
  pc := s.pc
  dsp := s.dsp
  rsp := s.rsp
  cycles := s.cycles
  halted := s.halted
  haltCause := s.haltCause
  haltInfo := s.haltInfo

/-- R165: `Peek(addr)`, no alignment check. -/
def peek (addr : Word) (s : State) : Word := readWord s addr

/-- R165: `Poke(addr, v)`, no alignment check. -/
def poke (addr v : Word) (s : State) : State := writeWord addr v s

/-- R163: `StepOverTarget()`; `none` is NOT_APPLICABLE (D16). -/
def stepOverTarget (s : State) : Option Word :=
  if classOf (fetchWord s) = 8#4 then some ((s.pc + 4#32) &&& pcMask) else none

/-! ## The driver (R161, R162) -/

/-- R161: zero, one or two breakpoint addresses, arguments of one call (R23). -/
inductive Breakpoints where
  | none
  | one (a : Word)
  | two (a b : Word)
deriving DecidableEq, Repr

/-- R162: a breakpoint matches when `pc` equals it exactly. -/
def Breakpoints.hit (bps : Breakpoints) (pc : Word) : Bool :=
  match bps with
  | .none => false
  | .one a => decide (pc = a)
  | .two a b => decide (pc = a) || decide (pc = b)

/-- R161: the results of `Execute`; `breakpoint` has the numeric value 0. -/
inductive ExecuteResult where
  | halted
  | frame (s : Word)
  | breakpoint
deriving DecidableEq, Repr

/-- R161: the driver's loop, at most `fuel` steps; `none` when they do not suffice. -/
def executeWithin (bps : Breakpoints) (fuel : Nat) (s : State) : Option (ExecuteResult × State) :=
  if s.halted then some (.halted, s)
  else
    match fuel with
    | 0 => none
    | n + 1 =>
      match step s with
      | .next t =>
        if t.halted then some (.halted, t)
        else if t.signal ≠ 0#32 then some (.frame t.signal, t)
        else if bps.hit t.pc then some (.breakpoint, t)
        else executeWithin bps n t
      | .fault _ => none
      | .refused _ => none

/-- R161: `Execute(bps)`. With a legal counter CYCLES_PER_FRAME steps suffice; one more covers a counter of `0xFFFFFFFF`, which wraps
first. `none` only when FRAME_RATE is 0, which R5 excludes (log 13). -/
def execute (bps : Breakpoints) (s : State) : Option (ExecuteResult × State) :=
  executeWithin bps (s.cfg.cyclesPerFrame.toNat + 1) s

/-! ## The image (R182) -/

/-- R182: the bytes of an image, stored from byte index `k` up. -/
def Memory.putBytes (m : Memory) (k : Nat) (bytes : List Byte) : Memory :=
  match bytes with
  | [] => m
  | b :: rest => Memory.putBytes (m.putByte k b) (k + 1) rest

/-- R182: the image is loaded verbatim from byte 0; one longer than the memory is refused (U17). -/
def loadImage (bytes : List Byte) (s : State) : Option State :=
  if bytes.length ≤ memBytes then some { s with mem := s.mem.putBytes 0 bytes } else none

/-! ## The session (R166, R181) -/

/-- The machine as the host holds it: its state, and whether Reset has been called (R181; log 11). -/
structure Session where
  state : State
  resetDone : Bool
deriving DecidableEq, Repr

/-- R181: power-up. The configuration and the launch memory are given; every register is unspecified: a free value (within `pc`'s
hardwired mask). No bridge call has been made. -/
def Session.powerUp (cfg : Config) (initMem : Memory) (keyAnswers : List (Option Word)) : Session where
  state :=
    { pc := Config.freeWord 0 &&& pcMask
      dsp := Config.freeWord 1
      rsp := Config.freeWord 2
      cycles := Config.freeWord 3
      mem := initMem
      halted := decide (Config.freeWord 4 ≠ 0#32)
      haltCause := Config.freeCause 5
      haltInfo := Config.freeWord 6
      cfg := cfg
      signal := 0#32
      bridgeCalls := []
      keyAnswers := keyAnswers
      draws := 7 }
  resetDone := false

/-- R3, R166: what the host can ask for. -/
inductive HostCall where
  | loadImage (bytes : List Byte)
  | reset
  | step
  | execute (bps : Breakpoints)
  | stepOverTarget
  | status
  | peek (addr : Word)
  | poke (addr v : Word)
deriving DecidableEq, Repr

/-- What the host gets back. -/
inductive HostAnswer where
  | done
  | signal (s : Word)
  | ran (r : ExecuteResult)
  | target (t : Option Word)
  | snapshot (r : Snapshot)
  | word (v : Word)
deriving DecidableEq, Repr

/-- The host's single step (R164). -/
def Session.stepCall (q : Session) : Host.Outcome (HostAnswer × Session) Fault Refusal :=
  match step q.state with
  | .next t => .next (.signal t.signal, { q with state := t })
  | .fault f => .fault f
  | .refused r => .refused r

/-- The host's driver call (R161). -/
def Session.executeCall (bps : Breakpoints) (q : Session) : Host.Outcome (HostAnswer × Session) Fault Refusal :=
  match execute bps q.state with
  | some (r, t) => .next (.ran r, { q with state := t })
  | none => .refused .illegalConfig

/-- One host call, between steps and never during one (R45, R166). -/
def Session.call (c : HostCall) (q : Session) : Host.Outcome (HostAnswer × Session) Fault Refusal :=
  match c with
  | .loadImage bytes =>
    match Machine.loadImage bytes q.state with
    | some t => .next (.done, { q with state := t })
    | none => .refused .imageTooLong
  | .reset => .next (.done, { state := resetOp q.state, resetDone := true })
  | .step => if q.resetDone then q.stepCall else .refused .beforeFirstReset
  | .execute bps => if q.resetDone then q.executeCall bps else .refused .beforeFirstReset
  | .stepOverTarget => .next (.target (Machine.stepOverTarget q.state), q)
  | .status => .next (.snapshot (Machine.status q.state), q)
  | .peek addr => .next (.word (Machine.peek addr q.state), q)
  | .poke addr v => .next (.done, { q with state := Machine.poke addr v q.state })

end Sys2Proof.Machine
end

