-- ==== Sys2Proof/Safety.lean ====
section
/-! DEFINITION. What counts as a safe run: no fatal condition (R153), stacks inside their windows (R38), and the invariant of the state. -/

namespace Sys2Proof.Machine

/-- R153: a state with `halted` = 1 is a fault, with the cause and the info it latched. -/
def State.fault? (s : State) : Option Fault :=
  if s.halted then some (.fatal s.haltCause s.haltInfo) else none

/-- R38: the obligation `InWindow`: `DS_LIMIT <= dsp <= RST_DSP` and `RS_LIMIT <= rsp <= RST_RSP`. It is no check of the hardware. -/
def State.inWindow (s : State) : Bool :=
  decide (s.cfg.dsLimit.toNat ≤ s.dsp.toNat) && decide (s.dsp.toNat ≤ s.cfg.rstDsp.toNat) &&
  (decide (s.cfg.rsLimit.toNat ≤ s.rsp.toNat) && decide (s.rsp.toNat ≤ s.cfg.rstRsp.toNat))

/-- R6, R39: how many cells an instruction pops from the data stack; `$HWIO` by its command. Every instruction pops all its operands
before it pushes. -/
def dataPops (i : Instr) (s : State) : Nat :=
  match i with
  | .lit _ => 0
  | .call _ => 0
  | .bra _ => 0
  | .bz _ => 1
  | .fetch => 1
  | .store => 2
  | .cFetch => 1
  | .cStore => 2
  | .plusStore => 2
  | .plus => 2
  | .minus => 2
  | .times => 2
  | .divide => 2
  | .bitAnd => 2
  | .bitOr => 2
  | .bitXor => 2
  | .bitNot => 1
  | .zeroEqual => 1
  | .zeroGreater => 1
  | .zeroLess => 1
  | .negate => 1
  | .onePlus => 1
  | .oneMinus => 1
  | .twoStar => 1
  | .twoSlash => 1
  | .dup => 1
  | .overCell => 2
  | .swap => 2
  | .rot => 3
  | .drop => 1
  | .semi => 0
  | .toR => 1
  | .fromR => 0
  | .skipIfZero => 1
  | .hwio => if topD s = 1#32 ∨ topD s = 2#32 then 2 else 1

/-- R6, R39: how many cells an instruction pushes on the data stack. -/
def dataPushes (i : Instr) (s : State) : Nat :=
  match i with
  | .lit _ => 1
  | .call _ => 0
  | .bra _ => 0
  | .bz _ => 0
  | .fetch => 1
  | .store => 0
  | .cFetch => 1
  | .cStore => 0
  | .plusStore => 0
  | .plus => 1
  | .minus => 1
  | .times => 1
  | .divide => 1
  | .bitAnd => 1
  | .bitOr => 1
  | .bitXor => 1
  | .bitNot => 1
  | .zeroEqual => 1
  | .zeroGreater => 1
  | .zeroLess => 1
  | .negate => 1
  | .onePlus => 1
  | .oneMinus => 1
  | .twoStar => 1
  | .twoSlash => 1
  | .dup => 2
  | .overCell => 3
  | .swap => 2
  | .rot => 3
  | .drop => 0
  | .semi => 0
  | .toR => 0
  | .fromR => 1
  | .skipIfZero => 0
  | .hwio => if topD s = 0#32 then 1 else 0

/-- R39: how many cells an instruction pops from the return stack: `;` and `R>` pop one. -/
def returnPops (i : Instr) : Nat :=
  match i with
  | .lit _ => 0
  | .call _ => 0
  | .bra _ => 0
  | .bz _ => 0
  | .fetch => 0
  | .store => 0
  | .cFetch => 0
  | .cStore => 0
  | .plusStore => 0
  | .plus => 0
  | .minus => 0
  | .times => 0
  | .divide => 0
  | .bitAnd => 0
  | .bitOr => 0
  | .bitXor => 0
  | .bitNot => 0
  | .zeroEqual => 0
  | .zeroGreater => 0
  | .zeroLess => 0
  | .negate => 0
  | .onePlus => 0
  | .oneMinus => 0
  | .twoStar => 0
  | .twoSlash => 0
  | .dup => 0
  | .overCell => 0
  | .swap => 0
  | .rot => 0
  | .drop => 0
  | .semi => 1
  | .toR => 0
  | .fromR => 1
  | .skipIfZero => 0
  | .hwio => 0

/-- R39: how many cells an instruction pushes on the return stack: CALL and `>R` push one. -/
def returnPushes (i : Instr) : Nat :=
  match i with
  | .lit _ => 0
  | .call _ => 1
  | .bra _ => 0
  | .bz _ => 0
  | .fetch => 0
  | .store => 0
  | .cFetch => 0
  | .cStore => 0
  | .plusStore => 0
  | .plus => 0
  | .minus => 0
  | .times => 0
  | .divide => 0
  | .bitAnd => 0
  | .bitOr => 0
  | .bitXor => 0
  | .bitNot => 0
  | .zeroEqual => 0
  | .zeroGreater => 0
  | .zeroLess => 0
  | .negate => 0
  | .onePlus => 0
  | .oneMinus => 0
  | .twoStar => 0
  | .twoSlash => 0
  | .dup => 0
  | .overCell => 0
  | .swap => 0
  | .rot => 0
  | .drop => 0
  | .semi => 0
  | .toR => 1
  | .fromR => 0
  | .skipIfZero => 0
  | .hwio => 0

/-- R38: the other half of `InWindow`: the instruction at `pc` pops no cell while the pointer equals its reset value. -/
def State.popsOnlyCells (s : State) : Bool :=
  match decodeWord s.cfg.primCodes (fetchWord s) with
  | .ok i =>
    (List.range (dataPops i s)).all (fun k => decide (s.dsp + BitVec.ofNat 32 (4 * k) ≠ s.cfg.rstDsp)) &&
    (List.range (returnPops i)).all (fun k => decide (s.rsp + BitVec.ofNat 32 (4 * k) ≠ s.cfg.rstRsp))
  | .error _ => true

/-- A state that is a safe point of a run: not halted, both stacks inside their windows, and the next instruction pops no empty stack. -/
def State.safe (s : State) : Bool := !s.halted && s.inWindow && s.popsOnlyCells

/-- R11: bits 31 to 20 and 1 to 0 of `pc` are zero. -/
def State.pcInRange (s : State) : Bool := decide (s.pc &&& pcMask = s.pc)

/-- R18: between completed steps `cycles < CYCLES_PER_FRAME`. After a fatal condition `cycles` is unspecified (R153). -/
def State.cyclesInRange (s : State) : Bool := s.halted || decide (s.cycles.toNat < s.cfg.cyclesPerFrame.toNat)

/-- The invariant of the machine: the configuration is legal (R5), memory is in its canonical form inside the 2^20 bytes (R30), `pc` is
one of the word-aligned addresses (R11), and the cycle counter is within its budget (R18). -/
def State.inv (s : State) : Bool := s.cfg.wf && s.mem.wf && s.pcInRange && s.cyclesInRange

/-- `n` steps from a state; it stops early at an outcome that is no next state. -/
def runSteps (n : Nat) (s : State) : Option State :=
  match n with
  | 0 => some s
  | k + 1 =>
    match step s with
    | .next t => runSteps k t
    | .fault _ => none
    | .refused _ => none

/-- R160: how many frame signals `n` steps from a state return. -/
def frameSignals (n : Nat) (s : State) : Nat :=
  match n with
  | 0 => 0
  | k + 1 =>
    match step s with
    | .next t => (if t.signal = 0#32 then 0 else 1) + frameSignals k t
    | .fault _ => 0
    | .refused _ => 0

/-- R20, R31: the byte at address `a` lies in the word cell that an access at `cell` touches. -/
def inCell (cell a : Word) : Prop := wordBase a = wordBase cell

end Sys2Proof.Machine
end

