-- ==== Sys2Proof/Certificates/Slice0/Obligations.lean ====
section
/-! DEFINITION. The statements for the provers. The names under Sys2Proof.Claims are shorthands the statements share. `D[k]` is the k-th
cell from the top of the data stack (R6); `s` is the state after the fetch and the advance wherever a statement is about `exec`. -/

namespace Sys2Proof.Claims

open Sys2Proof.Machine

/-- R6: `D[k]`, the k-th cell from the top of the data stack. -/
def cellD (s : State) (k : Nat) : Word := readWord s (s.dsp + BitVec.ofNat 32 (4 * k))

/-- Every byte outside the word cells at the addresses `cells` reads as before. -/
def sameBytesOutside (cells : List Word) (s t : State) : Prop :=
  ∀ a : Word, (∀ c ∈ cells, ¬ inCell c a) → readByte t a = readByte s a

/-- The special state no instruction's own effect touches: the counter, what the last step returned, the halt record, the configuration. -/
def sameSpecial (s t : State) : Prop :=
  t.cycles = s.cycles ∧ t.signal = s.signal ∧ t.halted = s.halted ∧ t.haltCause = s.haltCause ∧
  t.haltInfo = s.haltInfo ∧ t.cfg = s.cfg

/-- No bridge call is made and no input is taken. -/
def sameBridge (s t : State) : Prop :=
  t.bridgeCalls = s.bridgeCalls ∧ t.keyAnswers = s.keyAnswers ∧ t.draws = s.draws

/-- R38: the byte at `a` lies in neither stack window; the window's bounds are taken as they stand, not reduced modulo 2^20 (DESIGN CHOICE,
log 22). -/
def outsideWindows (c : Config) (a : Word) : Prop :=
  (byteIndex a < c.dsLimit.toNat ∨ c.rstDsp.toNat ≤ byteIndex a) ∧
  (byteIndex a < c.rsLimit.toNat ∨ c.rstRsp.toNat ≤ byteIndex a)

/-- R153: `t` is the halted state a fatal condition leaves after `s`, raised by an instruction that was popping the cells `popped`: the
record is latched, memory outside the stack windows (and outside the popped cells, wherever they lie) is as it was, no bridge call is
made. Nothing is said of `pc`, `dsp`, `rsp`, `cycles` or the popped cells. For window bounds at or above 2^20 the memory clause is the
model's choice and not R153's (logs 14, 22). -/
def haltsWith (s t : State) (cause : HaltCause) (info : Word) (popped : List Word) : Prop :=
  t.halted = true ∧ t.haltCause = cause ∧ t.haltInfo = info ∧ t.cfg = s.cfg ∧ t.bridgeCalls = s.bridgeCalls ∧
  t.keyAnswers = s.keyAnswers ∧
  ∀ a : Word, outsideWindows s.cfg a → (∀ c ∈ popped, ¬ inCell c a) → readByte t a = readByte s a

/-- A binary primitive: its canonical word under the default codes, and all it does (R118). -/
def binaryResult (word : Word) (i : Instr) (f : Word → Word → Word) : Prop :=
  decodeWord defaultPrimCodes word = .ok i ∧
  ∀ s : State, exec i s = .next (writeWord (s.dsp + 4#32) (f (readWord s (s.dsp + 4#32)) (readWord s s.dsp))
    { s with dsp := s.dsp + 4#32 })

/-- A unary primitive: its canonical word under the default codes, and all it does (R119). -/
def unaryResult (word : Word) (i : Instr) (f : Word → Word) : Prop :=
  decodeWord defaultPrimCodes word = .ok i ∧
  ∀ s : State, exec i s = .next (writeWord s.dsp (f (readWord s s.dsp)) s)

/-- R55: the row a word falls in, by its class. -/
def decodesByClass (codes : List Byte) (w : Word) : Prop :=
  ((w.extractLsb' 28 4).toNat ≤ 7 → decodeWord codes w = .ok (.lit (w.extractLsb' 0 31))) ∧
  (w.extractLsb' 28 4 = 8#4 → decodeWord codes w = .ok (.call (w.extractLsb' 0 28))) ∧
  (w.extractLsb' 28 4 = 9#4 → decodeWord codes w = .ok (.bra (w.extractLsb' 0 28))) ∧
  (w.extractLsb' 28 4 = 10#4 → decodeWord codes w = .ok (.bz (w.extractLsb' 0 28))) ∧
  (11 ≤ (w.extractLsb' 28 4).toNat ∧ (w.extractLsb' 28 4).toNat ≤ 14 →
    decodeWord codes w = .error (.reservedClass w)) ∧
  (w.extractLsb' 28 4 = 15#4 → w.extractLsb' 0 8 ∉ codes →
    decodeWord codes w = .error (.reservedPrimitive (w.extractLsb' 0 8))) ∧
  (w.extractLsb' 28 4 = 15#4 → ∀ i k, i.primNumber = some k → codes[k]? = some (w.extractLsb' 0 8) →
    decodeWord codes w = .ok i)

/-- R150: the fatal condition the instruction at `pc` raises, if any, with its cause and its info. -/
def fatalOf (s : State) : Option (HaltCause × Word) :=
  let w := readWord s s.pc
  let top := readWord s s.dsp
  if 11 ≤ (w.extractLsb' 28 4).toNat ∧ (w.extractLsb' 28 4).toNat ≤ 14 then some (.reservedClass, w)
  else if w.extractLsb' 28 4 = 15#4 ∧ w.extractLsb' 0 8 ∉ s.cfg.primCodes then
    some (.reservedPrimitive, (w.extractLsb' 0 8).setWidth 32)
  else match decodeWord s.cfg.primCodes w with
    | .ok .fetch => if top &&& 3#32 ≠ 0#32 then some (.misalignedWordAccess, top) else none
    | .ok .store => if top &&& 3#32 ≠ 0#32 then some (.misalignedWordAccess, top) else none
    | .ok .plusStore => if top &&& 3#32 ≠ 0#32 then some (.misalignedWordAccess, top) else none
    | .ok .hwio => if top = 0#32 ∨ top = 1#32 ∨ top = 2#32 then none else some (.reservedHwioCommand, top)
    | _ => none

/-- The instructions of one shape, for the frame statements. -/
def binaryInstrs : List Instr := [.plus, .minus, .times, .divide, .bitAnd, .bitOr, .bitXor]

/-- The unary primitives. -/
def unaryInstrs : List Instr :=
  [.bitNot, .zeroEqual, .zeroGreater, .zeroLess, .negate, .onePlus, .oneMinus, .twoStar, .twoSlash]

/-- The machine's state at the end of a chain of instructions run one after another. -/
def execAll (is : List Instr) (s : State) : Option State :=
  match is with
  | [] => some s
  | i :: rest =>
    match exec i s with
    | .next t => execAll rest t
    | .fault _ => none
    | .refused _ => none

end Sys2Proof.Claims

open Sys2Proof Sys2Proof.Machine Sys2Proof.Claims

/-! ## Encoding -/

/-- Decode and encode agree: under every `PRIM_CODE`, decoding the canonical word of a well-formed instruction gives it back, and under
an injective `PRIM_CODE` every instruction is well formed. -/
def Obligations.DecodeOfEncodeGivesBack : Prop :=
  (∀ (codes : List Byte) (i : Instr), i.wf codes = true → decodeWord codes (encode codes i) = .ok i) ∧
  (∀ (codes : List Byte) (i : Instr), primCodesWf codes = true → i.wf codes = true)

/-- A word decodes to an instruction exactly when it equals the canonical word in the significant bits: all 32, but bits 31:28 and 7:0
for a primitive, whose bits 27:8 are ignored. -/
def Obligations.DecodesExactlyWhenSignificantBitsMatch : Prop :=
  ∀ (codes : List Byte) (w : Word) (i : Instr), primCodesWf codes = true →
    (decodeWord codes w = .ok i ↔ w &&& significantBits i = encode codes i &&& significantBits i)

/-- R55, R56: the decoder is total; every word falls in the row of its class, a primitive by its code. -/
def Obligations.EveryWordFallsInTheRowOfItsClass : Prop :=
  ∀ (codes : List Byte) (w : Word), primCodesWf codes = true → decodesByClass codes w

/-- Words written out from R52 to R56 and from R58 decode to what they stand for. -/
def Obligations.WrittenOutWordsDecode : Prop :=
  decodeWord defaultPrimCodes 0x00000000#32 = .ok (.lit 0#31) ∧
  decodeWord defaultPrimCodes 0x7FFFFFFA#32 = .ok (.lit 0x7FFFFFFA#31) ∧
  decodeWord defaultPrimCodes 0x80000010#32 = .ok (.call 0x10#28) ∧
  decodeWord defaultPrimCodes 0x9FFFFFE4#32 = .ok (.bra 0xFFFFFE4#28) ∧
  decodeWord defaultPrimCodes 0xA0000004#32 = .ok (.bz 4#28) ∧
  decodeWord defaultPrimCodes 0xF0000000#32 = .ok .fetch ∧
  decodeWord defaultPrimCodes 0xF0ABCD05#32 = .ok .plus ∧
  decodeWord defaultPrimCodes 0xF0000015#32 = .ok .dup ∧
  decodeWord defaultPrimCodes 0xF000001E#32 = .ok .hwio ∧
  decodeWord defaultPrimCodes 0xF000001F#32 = .error (.reservedPrimitive 0x1F#8) ∧
  decodeWord defaultPrimCodes 0xE1234567#32 = .error (.reservedClass 0xE1234567#32)

/-- R52: the literals are exactly the patterns whose bits 31 and 30 are equal, from -2^30 to 2^30 - 1; the value is the word with bit 31
replaced by a copy of bit 30. -/
def Obligations.LiteralsAreTheWordsWithEqualTopBits : Prop :=
  (∀ v : Word, (∃ imm : BitVec 31, literalValue imm = v) ↔ v.getLsbD 31 = v.getLsbD 30) ∧
  (∀ imm : BitVec 31, -(2 ^ 30) ≤ (literalValue imm).toInt ∧ (literalValue imm).toInt ≤ 2 ^ 30 - 1) ∧
  (∀ w : Word, w.getLsbD 31 = false → ∃ imm : BitVec 31, decodeWord defaultPrimCodes w = .ok (.lit imm) ∧
    (literalValue imm).getLsbD 31 = w.getLsbD 30 ∧ ∀ k < 31, (literalValue imm).getLsbD k = w.getLsbD k) ∧
  literalValue 0x40000005#31 = 0xC0000005#32

/-- R53: the relative target: signedness of the offset does not matter, nor do its bits 27:20 and 1:0, and the canonical offset of a
target reaches it from anywhere. -/
def Obligations.RelativeTargetDependsOnOffsetBits19To2 : Prop :=
  (∀ (pc : Word) (off : BitVec 28), relativeTarget pc off = (pc + off.setWidth 32) &&& 0x000FFFFC#32) ∧
  (∀ (pc : Word) (off : BitVec 28), relativeTarget pc off = (pc + off.signExtend 32) &&& 0x000FFFFC#32) ∧
  (∀ (pc : Word) (off off' : BitVec 28), pc &&& 3#32 = 0#32 → off.extractLsb' 2 18 = off'.extractLsb' 2 18 →
    relativeTarget pc off = relativeTarget pc off') ∧
  (∀ a target : Word, target &&& 0x000FFFFC#32 = target →
    relativeTarget (a + 4#32) ((target - (a + 4#32)).setWidth 28) = target)

/-! ## The literal and relative classes -/

/-- R71: LIT pushes its sign-extended literal. -/
def Obligations.LitPushesItsSignExtendedLiteral : Prop :=
  (∀ (codes : List Byte) (w : Word), w.getLsbD 31 = false → decodeWord codes w = .ok (.lit (w.extractLsb' 0 31))) ∧
  (∀ (imm : BitVec 31) (s : State), exec (.lit imm) s =
    .next (writeWord (s.dsp - 4#32) (imm.signExtend 32) { s with dsp := s.dsp - 4#32 }))

/-- R72, R73, R74: CALL, BRA and BZ. `s.pc` is the already advanced program counter. -/
def Obligations.RelativeClassesTransferControl : Prop :=
  (∀ (codes : List Byte) (w : Word), w.extractLsb' 28 4 = 8#4 → decodeWord codes w = .ok (.call (w.extractLsb' 0 28))) ∧
  (∀ (codes : List Byte) (w : Word), w.extractLsb' 28 4 = 9#4 → decodeWord codes w = .ok (.bra (w.extractLsb' 0 28))) ∧
  (∀ (codes : List Byte) (w : Word), w.extractLsb' 28 4 = 10#4 → decodeWord codes w = .ok (.bz (w.extractLsb' 0 28))) ∧
  (∀ (off : BitVec 28) (s : State), exec (.call off) s =
    .next (writeWord (s.rsp - 4#32) s.pc
      { s with rsp := s.rsp - 4#32, pc := (s.pc + off.setWidth 32) &&& 0x000FFFFC#32 })) ∧
  (∀ (off : BitVec 28) (s : State), exec (.bra off) s =
    .next { s with pc := (s.pc + off.setWidth 32) &&& 0x000FFFFC#32 }) ∧
  (∀ (off : BitVec 28) (s : State), readWord s s.dsp = 0#32 → exec (.bz off) s =
    .next { s with dsp := s.dsp + 4#32, pc := (s.pc + off.setWidth 32) &&& 0x000FFFFC#32 }) ∧
  (∀ (off : BitVec 28) (s : State), readWord s s.dsp ≠ 0#32 → exec (.bz off) s =
    .next { s with dsp := s.dsp + 4#32 })

/-! ## Memory primitives -/

/-- R90, R91, R94: `@`, `!`, `+!` with an aligned address, and the halt with a misaligned one, the addressed word unwritten.
What the halt leaves in memory rests, under window bounds at or above 2^20, on the model's choices of logs 14 and 22. -/
def Obligations.WordPrimitivesAccessAlignedOrHalt : Prop :=
  decodeWord defaultPrimCodes 0xF0000000#32 = .ok .fetch ∧
  decodeWord defaultPrimCodes 0xF0000001#32 = .ok .store ∧
  decodeWord defaultPrimCodes 0xF0000004#32 = .ok .plusStore ∧
  (∀ s : State, readWord s s.dsp &&& 3#32 = 0#32 →
    exec .fetch s = .next (writeWord s.dsp (readWord s (readWord s s.dsp)) s) ∧
    exec .store s = .next (writeWord (readWord s s.dsp) (readWord s (s.dsp + 4#32)) { s with dsp := s.dsp + 8#32 }) ∧
    exec .plusStore s = .next (writeWord (readWord s s.dsp)
      (readWord s (readWord s s.dsp) + readWord s (s.dsp + 4#32)) { s with dsp := s.dsp + 8#32 })) ∧
  (∀ s : State, readWord s s.dsp &&& 3#32 ≠ 0#32 →
    (∃ t, exec .fetch s = .next t ∧ haltsWith s t .misalignedWordAccess (readWord s s.dsp) [s.dsp]) ∧
    (∀ i ∈ [Instr.store, Instr.plusStore], ∃ t, exec i s = .next t ∧
      haltsWith s t .misalignedWordAccess (readWord s s.dsp) [s.dsp, s.dsp + 4#32] ∧
      (¬ inCell s.dsp (readWord s s.dsp) → ¬ inCell (s.dsp + 4#32) (readWord s s.dsp) →
        readWord t (readWord s s.dsp) = readWord s (readWord s s.dsp))))

/-- R92, R93: `C@` pushes the byte zero-extended, `C!` stores the low byte; neither checks alignment. -/
def Obligations.BytePrimitivesZeroExtendAndTruncate : Prop :=
  decodeWord defaultPrimCodes 0xF0000002#32 = .ok .cFetch ∧
  decodeWord defaultPrimCodes 0xF0000003#32 = .ok .cStore ∧
  (∀ s : State, exec .cFetch s = .next (writeWord s.dsp ((readByte s (readWord s s.dsp)).setWidth 32) s)) ∧
  (∀ s : State, exec .cStore s = .next (writeByte (readWord s s.dsp)
    ((readWord s (s.dsp + 4#32)).extractLsb' 0 8) { s with dsp := s.dsp + 8#32 }))

/-- S10: `C!` then a read of the containing word: the byte's lane is replaced, the other lanes stay (the reference little-endian order
and the other one). -/
def Obligations.StoredByteShowsInItsLaneOfTheWord : Prop :=
  ∀ (s t : State), s.mem.wf = true → exec .cStore s = .next t →
    readByte t (readWord s s.dsp) = (readWord s (s.dsp + 4#32)).extractLsb' 0 8 ∧
    ∀ k < 4, byteOfWord s.cfg.byteOrder (readWord t (readWord s s.dsp)) k =
      if k = (readWord s s.dsp).toNat % 4 then (readWord s (s.dsp + 4#32)).extractLsb' 0 8
      else byteOfWord s.cfg.byteOrder (readWord s (readWord s s.dsp)) k

/-! ## Arithmetic and logic -/

/-- R101, R102, R103: addition, subtraction, multiplication, modulo 2^32. -/
def Obligations.PlusMinusTimesWrap : Prop :=
  binaryResult 0xF0000005#32 .plus (fun a b => a + b) ∧
  binaryResult 0xF0000006#32 .minus (fun a b => a - b) ∧
  binaryResult 0xF0000007#32 .times (fun a b => BitVec.ofNat 32 (a.toNat * b.toNat))

/-- R104: signed division rounds toward zero; by zero it gives 0; the overflowing pair gives the parameter DIV_MIN_NEG1. -/
def Obligations.DivideTruncatesTowardZero : Prop :=
  decodeWord defaultPrimCodes 0xF0000008#32 = .ok .divide ∧
  ∀ s : State, ∃ r : Word,
    exec .divide s = .next (writeWord (s.dsp + 4#32) r { s with dsp := s.dsp + 4#32 }) ∧
    (readWord s s.dsp = 0#32 → r = 0#32) ∧
    (readWord s (s.dsp + 4#32) = 0x80000000#32 → readWord s s.dsp = 0xFFFFFFFF#32 → r = s.cfg.divMinNeg1) ∧
    (readWord s s.dsp ≠ 0#32 →
      ¬ (readWord s (s.dsp + 4#32) = 0x80000000#32 ∧ readWord s s.dsp = 0xFFFFFFFF#32) →
      r.toInt = Int.tdiv (readWord s (s.dsp + 4#32)).toInt (readWord s s.dsp).toInt)

/-- R105, R106, R107: bitwise and, or, exclusive or. -/
def Obligations.AndOrXorAreBitwise : Prop :=
  binaryResult 0xF0000009#32 .bitAnd (fun a b => a &&& b) ∧
  binaryResult 0xF000000A#32 .bitOr (fun a b => a ||| b) ∧
  binaryResult 0xF000000B#32 .bitXor (fun a b => a ^^^ b)

/-- R108, R112 to R116: complement, negation, increment, decrement and the two logical shifts. -/
def Obligations.UnaryPrimitivesReplaceTheTop : Prop :=
  unaryResult 0xF000000C#32 .bitNot (fun a => ~~~a) ∧
  unaryResult 0xF0000010#32 .negate (fun a => ~~~a + 1#32) ∧
  unaryResult 0xF0000011#32 .onePlus (fun a => a + 1#32) ∧
  unaryResult 0xF0000012#32 .oneMinus (fun a => a - 1#32) ∧
  unaryResult 0xF0000013#32 .twoStar (fun a => BitVec.ofNat 32 (2 * a.toNat)) ∧
  unaryResult 0xF0000014#32 .twoSlash (fun a => BitVec.ofNat 32 (a.toNat / 2))

/-- R109, R110, R111: the zero tests leave TRUE or FALSE in place of the tested cell; for every cell exactly one of them is TRUE. -/
def Obligations.ZeroTestsLeaveExactlyOneTrue : Prop :=
  unaryResult 0xF000000D#32 .zeroEqual (fun a => if a = 0#32 then 0xFFFFFFFF#32 else 0#32) ∧
  unaryResult 0xF000000E#32 .zeroGreater
    (fun a => if a.getLsbD 31 = false ∧ a ≠ 0#32 then 0xFFFFFFFF#32 else 0#32) ∧
  unaryResult 0xF000000F#32 .zeroLess (fun a => if a.getLsbD 31 = true then 0xFFFFFFFF#32 else 0#32) ∧
  (∀ a : Word, (flagCell (isZero a) = 0xFFFFFFFF#32 ↔ a.toInt = 0) ∧
    (flagCell (isPositive a) = 0xFFFFFFFF#32 ↔ 0 < a.toInt) ∧ (flagCell (isNegative a) = 0xFFFFFFFF#32 ↔ a.toInt < 0))

/-- R118: the frame of the binary primitives: only the cell that held `a` changes, the popped `b` stays below the new top. -/
def Obligations.BinaryPrimitivesChangeOneCell : Prop :=
  ∀ i ∈ binaryInstrs, ∀ s t : State, exec i s = .next t →
    t.pc = s.pc ∧ t.dsp = s.dsp + 4#32 ∧ t.rsp = s.rsp ∧ sameSpecial s t ∧ sameBridge s t ∧
    sameBytesOutside [s.dsp + 4#32] s t ∧ readWord t s.dsp = readWord s s.dsp

/-- R119: the frame of the unary primitives, and of `@` with an aligned address and `C@`: only the top cell changes. -/
def Obligations.UnaryPrimitivesChangeTheTopCell : Prop :=
  (∀ i ∈ unaryInstrs, ∀ s t : State, exec i s = .next t →
    t.pc = s.pc ∧ t.dsp = s.dsp ∧ t.rsp = s.rsp ∧ sameSpecial s t ∧ sameBridge s t ∧ sameBytesOutside [s.dsp] s t) ∧
  (∀ s t : State, exec .cFetch s = .next t →
    t.pc = s.pc ∧ t.dsp = s.dsp ∧ t.rsp = s.rsp ∧ sameSpecial s t ∧ sameBridge s t ∧ sameBytesOutside [s.dsp] s t) ∧
  (∀ s t : State, misaligned (topD s) = false → exec .fetch s = .next t →
    t.pc = s.pc ∧ t.dsp = s.dsp ∧ t.rsp = s.rsp ∧ sameSpecial s t ∧ sameBridge s t ∧ sameBytesOutside [s.dsp] s t)

/-- The frame of the storing primitives: `!` and `+!` with an aligned address change only the addressed word, `C!` only the addressed
byte; `dsp` rises by 8. -/
def Obligations.StoringPrimitivesChangeOnlyTheAddressed : Prop :=
  (∀ i ∈ [Instr.store, Instr.plusStore], ∀ s t : State, misaligned (topD s) = false → exec i s = .next t →
    t.pc = s.pc ∧ t.dsp = s.dsp + 8#32 ∧ t.rsp = s.rsp ∧ sameSpecial s t ∧ sameBridge s t ∧
    sameBytesOutside [topD s] s t) ∧
  (∀ s t : State, exec .cStore s = .next t →
    t.pc = s.pc ∧ t.dsp = s.dsp + 8#32 ∧ t.rsp = s.rsp ∧ sameSpecial s t ∧ sameBridge s t ∧
    ∀ a : Word, byteIndex a ≠ byteIndex (topD s) → readByte t a = readByte s a)

/-! ## Shuffles -/

/-- R130 to R134: the stack effects of DUP, OVER, SWAP, ROT and DROP, with their frames. -/
def Obligations.ShufflesHaveTheirStackEffects : Prop :=
  decodeWord defaultPrimCodes 0xF0000015#32 = .ok .dup ∧ decodeWord defaultPrimCodes 0xF0000016#32 = .ok .overCell ∧
  decodeWord defaultPrimCodes 0xF0000017#32 = .ok .swap ∧ decodeWord defaultPrimCodes 0xF0000018#32 = .ok .rot ∧
  decodeWord defaultPrimCodes 0xF0000019#32 = .ok .drop ∧
  ∀ s : State, s.mem.wf = true →
    (∃ t, exec .dup s = .next t ∧ t.dsp = s.dsp - 4#32 ∧ cellD t 0 = cellD s 0 ∧ cellD t 1 = cellD s 0 ∧
      t.pc = s.pc ∧ t.rsp = s.rsp ∧ sameSpecial s t ∧ sameBridge s t ∧ sameBytesOutside [s.dsp - 4#32] s t) ∧
    (∃ t, exec .overCell s = .next t ∧ t.dsp = s.dsp - 4#32 ∧ cellD t 0 = cellD s 1 ∧ cellD t 1 = cellD s 0 ∧
      cellD t 2 = cellD s 1 ∧
      t.pc = s.pc ∧ t.rsp = s.rsp ∧ sameSpecial s t ∧ sameBridge s t ∧ sameBytesOutside [s.dsp - 4#32] s t) ∧
    (∃ t, exec .swap s = .next t ∧ t.dsp = s.dsp ∧ cellD t 0 = cellD s 1 ∧ cellD t 1 = cellD s 0 ∧
      t.pc = s.pc ∧ t.rsp = s.rsp ∧ sameSpecial s t ∧ sameBridge s t ∧
      sameBytesOutside [s.dsp, s.dsp + 4#32] s t) ∧
    (∃ t, exec .rot s = .next t ∧ t.dsp = s.dsp ∧ cellD t 0 = cellD s 2 ∧ cellD t 1 = cellD s 0 ∧
      cellD t 2 = cellD s 1 ∧
      t.pc = s.pc ∧ t.rsp = s.rsp ∧ sameSpecial s t ∧ sameBridge s t ∧
      sameBytesOutside [s.dsp, s.dsp + 4#32, s.dsp + 8#32] s t) ∧
    exec .drop s = .next { s with dsp := s.dsp + 4#32 }

/-- S2, S3, R132, R133: SWAP twice and ROT three times give back the very state; DUP then DROP restores `dsp` and every cell but the one
below `dsp`, which keeps the copy. -/
def Obligations.SwapAndRotUndoThemselves : Prop :=
  ∀ s : State, s.mem.wf = true →
    execAll [.swap, .swap] s = some s ∧
    execAll [.rot, .rot, .rot] s = some s ∧
    execAll [.dup, .drop] s = some (writeWord (s.dsp - 4#32) (cellD s 0) s)

/-! ## Return, transfers, skip, hardware I/O -/

/-- R140, R141, R142: `;`, `>R`, `R>`. -/
def Obligations.ReturnAndTransfersMoveCells : Prop :=
  decodeWord defaultPrimCodes 0xF000001A#32 = .ok .semi ∧ decodeWord defaultPrimCodes 0xF000001B#32 = .ok .toR ∧
  decodeWord defaultPrimCodes 0xF000001C#32 = .ok .fromR ∧
  ∀ s : State,
    exec .semi s = .next { s with rsp := s.rsp + 4#32, pc := readWord s s.rsp &&& 0x000FFFFC#32 } ∧
    exec .toR s = .next (writeWord (s.rsp - 4#32) (readWord s s.dsp)
      { s with dsp := s.dsp + 4#32, rsp := s.rsp - 4#32 }) ∧
    exec .fromR s = .next (writeWord (s.dsp - 4#32) (readWord s s.rsp)
      { s with rsp := s.rsp + 4#32, dsp := s.dsp - 4#32 })

/-- R143: `#0IF` skips exactly one word when the popped cell is zero. -/
def Obligations.SkipIfZeroSkipsOneWord : Prop :=
  decodeWord defaultPrimCodes 0xF000001D#32 = .ok .skipIfZero ∧
  ∀ s : State,
    (readWord s s.dsp = 0#32 →
      exec .skipIfZero s = .next { s with dsp := s.dsp + 4#32, pc := (s.pc + 4#32) &&& 0x000FFFFC#32 }) ∧
    (readWord s s.dsp ≠ 0#32 → exec .skipIfZero s = .next { s with dsp := s.dsp + 4#32 })

/-- R144: the three commands of `$HWIO`, and the halt on every other one. Command 0 holds for whatever the bridge answers (R145); how
answers and calls are held is the model's form (logs 9, 10). What the halt leaves in memory rests, under window bounds at or above 2^20,
on the model's choices of logs 14 and 22. -/
def Obligations.HwioServesItsThreeCommands : Prop :=
  decodeWord defaultPrimCodes 0xF000001E#32 = .ok .hwio ∧
  ∀ s : State,
    (readWord s s.dsp = 0#32 → ∃ t, exec .hwio s = .next t ∧
      t.mem = (writeWord s.dsp (match keyAnswer s with | some k => k | none => 0#32) s).mem ∧
      t.bridgeCalls = s.bridgeCalls ++ [.getKey] ∧
      t.pc = s.pc ∧ t.dsp = s.dsp ∧ t.rsp = s.rsp ∧ sameSpecial s t) ∧
    (readWord s s.dsp = 1#32 → exec .hwio s = .next { s with
      dsp := s.dsp + 8#32
      bridgeCalls := s.bridgeCalls ++ [.setScreenWriteAddress (readWord s (s.dsp + 4#32))] }) ∧
    (readWord s s.dsp = 2#32 → exec .hwio s = .next { s with
      dsp := s.dsp + 8#32
      bridgeCalls := s.bridgeCalls ++ [.writeScreenMemory (readWord s (s.dsp + 4#32))] }) ∧
    (readWord s s.dsp ≠ 0#32 → readWord s s.dsp ≠ 1#32 → readWord s s.dsp ≠ 2#32 →
      ∃ t, exec .hwio s = .next t ∧ haltsWith s t .reservedHwioCommand (readWord s s.dsp) [s.dsp])

/-- R145, log 9: the answer the environment has ready is the one pushed, once, in order; any answer at all may be ready. -/
def Obligations.HwioTakesTheReadyKeyAnswer : Prop :=
  ∀ (s : State) (k : Option Word) (rest : List (Option Word)), s.mem.wf = true → readWord s s.dsp = 0#32 →
    s.keyAnswers = k :: rest →
    ∃ t, exec .hwio s = .next t ∧ cellD t 0 = k.getD 0#32 ∧ t.keyAnswers = rest ∧ t.draws = s.draws ∧
      sameBytesOutside [s.dsp] s t

/-- The frame of the literal, relative, return and transfer instructions: what each leaves unchanged. -/
def Obligations.ControlAndTransferFrames : Prop :=
  (∀ (imm : BitVec 31) (s t : State), exec (.lit imm) s = .next t →
    t.pc = s.pc ∧ t.rsp = s.rsp ∧ sameSpecial s t ∧ sameBridge s t ∧ sameBytesOutside [s.dsp - 4#32] s t) ∧
  (∀ (off : BitVec 28) (s t : State), exec (.call off) s = .next t →
    t.dsp = s.dsp ∧ sameSpecial s t ∧ sameBridge s t ∧ sameBytesOutside [s.rsp - 4#32] s t) ∧
  (∀ (off : BitVec 28) (s t : State), exec (.bra off) s = .next t →
    t.dsp = s.dsp ∧ t.rsp = s.rsp ∧ sameSpecial s t ∧ sameBridge s t ∧ sameBytesOutside [] s t) ∧
  (∀ (off : BitVec 28) (s t : State), exec (.bz off) s = .next t →
    t.rsp = s.rsp ∧ sameSpecial s t ∧ sameBridge s t ∧ sameBytesOutside [] s t) ∧
  (∀ s t : State, exec .skipIfZero s = .next t →
    t.rsp = s.rsp ∧ sameSpecial s t ∧ sameBridge s t ∧ sameBytesOutside [] s t) ∧
  (∀ s t : State, exec .semi s = .next t →
    t.dsp = s.dsp ∧ sameSpecial s t ∧ sameBridge s t ∧ sameBytesOutside [] s t) ∧
  (∀ s t : State, exec .toR s = .next t →
    t.pc = s.pc ∧ sameSpecial s t ∧ sameBridge s t ∧ sameBytesOutside [s.rsp - 4#32] s t) ∧
  (∀ s t : State, exec .fromR s = .next t →
    t.pc = s.pc ∧ sameSpecial s t ∧ sameBridge s t ∧ sameBytesOutside [s.dsp - 4#32] s t)

/-! ## Whole-machine rules over the instructions -/

/-- R13, R146: no instruction but CALL, BRA, BZ, `;` and `#0IF` writes `pc`, and none but CALL, `;`, `>R`, `R>` writes `rsp` (unless it
halts). -/
def Obligations.OnlyTheControlInstructionsWritePcAndRsp : Prop :=
  ∀ (i : Instr) (s t : State), exec i s = .next t → s.halted = false → t.halted = false →
    ((∀ off, i ≠ .call off) → (∀ off, i ≠ .bra off) → (∀ off, i ≠ .bz off) → i ≠ .semi → i ≠ .skipIfZero → t.pc = s.pc) ∧
    ((∀ off, i ≠ .call off) → i ≠ .semi → i ≠ .toR → i ≠ .fromR → t.rsp = s.rsp)

/-- R135, R37, R39: unless it halts, an instruction moves each stack pointer by 4 for every cell it pops and pushes, as its stack effect
shows, and by nothing else. -/
def Obligations.StackPointersMoveByTheStackEffect : Prop :=
  ∀ (i : Instr) (s t : State), exec i s = .next t → s.halted = false → t.halted = false →
    t.dsp = s.dsp + BitVec.ofNat 32 (4 * dataPops i s) - BitVec.ofNat 32 (4 * dataPushes i s) ∧
    t.rsp = s.rsp + BitVec.ofNat 32 (4 * returnPops i) - BitVec.ofNat 32 (4 * returnPushes i)

/-- R167, R145, R18, R10: no instruction but `$HWIO` calls the bridge or takes a key; no instruction writes the cycle counter or the
configuration (unless it halts, and then not the configuration either). -/
def Obligations.OnlyHwioTalksToTheBridge : Prop :=
  ∀ (i : Instr) (s t : State), exec i s = .next t →
    t.cfg = s.cfg ∧
    (i ≠ .hwio → t.bridgeCalls = s.bridgeCalls ∧ t.keyAnswers = s.keyAnswers) ∧
    (s.halted = false → t.halted = false → sameSpecial s t ∧ (i ≠ .hwio → t.draws = s.draws))

/-- R35: `@`, `!` and `+!` check alignment, and only they: no other instruction raises the misalignment condition. The test is on the
low two bits alone, whatever bits 31 to 20 are. What the halt leaves in memory rests, under window bounds at or above 2^20, on the
model's choices of logs 14 and 22. -/
def Obligations.OnlyThreePrimitivesCheckAlignment : Prop :=
  ∀ (i : Instr) (s : State), s.halted = false →
    (i = .fetch ∨ i = .store ∨ i = .plusStore →
      ((readWord s s.dsp).extractLsb' 0 2 ≠ 0#2 → ∃ t, exec i s = .next t ∧
        haltsWith s t .misalignedWordAccess (readWord s s.dsp) [s.dsp, s.dsp + 4#32]) ∧
      ((readWord s s.dsp).extractLsb' 0 2 = 0#2 → ∃ t, exec i s = .next t ∧ t.halted = false)) ∧
    (i ≠ .fetch → i ≠ .store → i ≠ .plusStore → ∃ t, exec i s = .next t ∧
      (t.halted = true → t.haltCause = .reservedHwioCommand ∧ i = .hwio))

/-! ## Memory -/

/-- R31, R32: accesses ignore bits 31:20 (and a word access bits 1:0); a word read after a word write of the same word gives the value
written, and every byte outside it is as before; likewise for bytes. -/
def Obligations.AccessesWrapAndReadBackWhatWasWritten : Prop :=
  ∀ (s : State), s.mem.wf = true →
    (∀ a : Word, readWord s a = readWord s (a &&& 0x000FFFFC#32) ∧ readByte s a = readByte s (a &&& 0x000FFFFF#32)) ∧
    (∀ a v : Word, writeWord a v s = writeWord (a &&& 0x000FFFFC#32) v s) ∧
    (∀ (a : Word) (v : Byte), writeByte a v s = writeByte (a &&& 0x000FFFFF#32) v s) ∧
    (∀ a b v : Word, readWord (writeWord a v s) b =
      if a.extractLsb' 2 18 = b.extractLsb' 2 18 then v else readWord s b) ∧
    (∀ (a b : Word) (v : Byte), readByte (writeByte a v s) b =
      if a.extractLsb' 0 20 = b.extractLsb' 0 20 then v else readByte s b)

/-- R33, R46: the word and the bytes are one storage: a word read is its four bytes, in the order of BYTE_ORDER. -/
def Obligations.WordAndByteViewsAreOneStorage : Prop :=
  (∀ (s : State) (a : Word), a &&& 3#32 = 0#32 → s.cfg.byteOrder = .little →
    readWord s a = readByte s (a + 3#32) ++ readByte s (a + 2#32) ++ readByte s (a + 1#32) ++ readByte s a) ∧
  (∀ (s : State) (a : Word), a &&& 3#32 = 0#32 → s.cfg.byteOrder = .big →
    readWord s a = readByte s a ++ readByte s (a + 1#32) ++ readByte s (a + 2#32) ++ readByte s (a + 3#32)) ∧
  (∀ (s : State) (a v : Word) (k : Nat), s.mem.wf = true → a &&& 3#32 = 0#32 → k < 4 →
    readByte (writeWord a v s) (a + BitVec.ofNat 32 k) =
      if s.cfg.byteOrder = .little then v.extractLsb' (8 * k) 8 else v.extractLsb' (24 - 8 * k) 8)

/-- R44: a `!` to the address of the next instruction is seen by the next fetch. -/
def Obligations.StoreIsSeenByTheNextFetch : Prop :=
  ∀ s : State, s.halted = false → s.mem.wf = true →
    decodeWord s.cfg.primCodes (readWord s s.pc) = .ok .store →
    readWord s s.dsp &&& 3#32 = 0#32 → readWord s s.dsp &&& 0x000FFFFC#32 = (s.pc + 4#32) &&& 0x000FFFFC#32 →
    ∃ t, step s = .next t ∧ t.halted = false ∧ t.pc = (s.pc + 4#32) &&& 0x000FFFFC#32 ∧
      readWord t t.pc = readWord s (s.dsp + 4#32)

/-! ## The step -/

/-- R70, R154: a step while halted changes nothing and returns 0; otherwise it fetches at `pc`, advances `pc`, decodes by class, runs the
instruction, and counts it unless a fatal condition was raised. What the step returns is the field `signal` (log 6).
What a reserved word's halt leaves in memory rests, under window bounds at or above 2^20, on the model's choices of logs 14 and 22. -/
def Obligations.StepFetchesAdvancesRunsAndCounts : Prop :=
  ∀ s : State,
    (s.halted = true → step s = .next { s with signal := 0#32 }) ∧
    (s.halted = false →
      (primCodesWf s.cfg.primCodes = true → decodesByClass s.cfg.primCodes (readWord s s.pc)) ∧
      (∀ w, decodeWord s.cfg.primCodes (readWord s s.pc) = .error (.reservedClass w) →
        ∃ t, step s = .next t ∧ haltsWith s t .reservedClass w []) ∧
      (∀ c, decodeWord s.cfg.primCodes (readWord s s.pc) = .error (.reservedPrimitive c) →
        ∃ t, step s = .next t ∧ haltsWith s t .reservedPrimitive (c.setWidth 32) []) ∧
      (∀ i u, decodeWord s.cfg.primCodes (readWord s s.pc) = .ok i →
        exec i { s with pc := (s.pc + 4#32) &&& 0x000FFFFC#32 } = .next u →
        (u.halted = true → step s = .next u) ∧
        (u.halted = false → s.cfg.cyclesPerFrame.toNat ≤ (u.cycles + 1#32).toNat →
          step s = .next { u with cycles := u.cycles + 1#32 - u.cfg.cyclesPerFrame, signal := u.cfg.frameRate }) ∧
        (u.halted = false → (u.cycles + 1#32).toNat < s.cfg.cyclesPerFrame.toNat →
          step s = .next { u with cycles := u.cycles + 1#32, signal := 0#32 })))

/-- R57, R58: a step that fetches a reserved word halts with its cause: classes 11 to 14, and class-15 words whose code is not assigned,
which under the default codes are 0x1F to 0xFF. What the halt leaves in memory rests, under window bounds at or above 2^20, on the model's
choices of logs 14 and 22. -/
def Obligations.ReservedWordsHaltTheStep : Prop :=
  (∀ s : State, s.halted = false →
    11 ≤ ((readWord s s.pc).extractLsb' 28 4).toNat → ((readWord s s.pc).extractLsb' 28 4).toNat ≤ 14 →
    ∃ t, step s = .next t ∧ haltsWith s t .reservedClass (readWord s s.pc) []) ∧
  (∀ s : State, s.halted = false → (readWord s s.pc).extractLsb' 28 4 = 15#4 →
    (readWord s s.pc).extractLsb' 0 8 ∉ s.cfg.primCodes →
    ∃ t, step s = .next t ∧ haltsWith s t .reservedPrimitive (((readWord s s.pc).extractLsb' 0 8).setWidth 32) []) ∧
  (∀ c : Byte, c ∉ defaultPrimCodes ↔ 0x1F ≤ c.toNat)

/-- R150, R155: a completed step ends halted exactly when the instruction at `pc` raises one of the four fatal conditions, with that cause
and info; it raises at most one. -/
def Obligations.StepHaltsExactlyOnTheFourConditions : Prop :=
  ∀ s t : State, s.halted = false → primCodesWf s.cfg.primCodes = true → step s = .next t →
    match fatalOf s with
    | some (cause, info) => t.halted = true ∧ t.haltCause = cause ∧ t.haltInfo = info
    | none => t.halted = false

/-- R76: every step answers a next state: no instruction blocks, there is no terminal state and nothing is left without a meaning. -/
def Obligations.EveryStepAnswersANextState : Prop :=
  (∀ (i : Instr) (s : State), ∃ t, exec i s = .next t) ∧ (∀ s : State, ∃ t, step s = .next t)

/-- The step keeps the invariant: a legal configuration, memory in its canonical form inside the 2^20 bytes (R30), `pc` one of the
word-aligned addresses (R11; in a halted state by the model's reading of R11, log 7), `cycles` below the budget unless halted (R18). -/
def Obligations.StepKeepsTheMachineInvariant : Prop :=
  ∀ s t : State, s.inv = true → step s = .next t → t.inv = true

/-- The state after Reset, under the reference configuration (log 1, log 2), meets the invariant. -/
def Obligations.ResetStateMeetsTheMachineInvariant : Prop := State.reset.inv = true

/-- R18, R156: the cycle counter and what the last step returned cannot be observed by a program: two states that differ in nothing else
step to states that differ in nothing else. Where the step raises a fatal condition, R153 and U10 leave `pc`, `dsp`, `rsp` and the popped
cells unspecified; that the two runs agree in them is the model's choice (log 3: a free value depends on `draws` alone), no rule's. -/
def Obligations.ProgramsCannotObserveTheCycleCounter : Prop :=
  ∀ (s t : State) (c g : Word), step s = .next t →
    ∃ t', step { s with cycles := c, signal := g } = .next t' ∧
      { t' with cycles := t.cycles, signal := t.signal } = t

/-- R160: after `n` completed steps from a counter of 0, `cycles = n mod CYCLES_PER_FRAME`, and the number of frame signals returned is
`floor(n / CYCLES_PER_FRAME)`. -/
def Obligations.CompletedStepsAreCountedModuloTheBudget : Prop :=
  ∀ (n : Nat) (s : State), s.cfg.wf = true → s.cycles = 0#32 →
    (∀ k ≤ n, ∃ t, runSteps k s = some t ∧ t.halted = false) →
    ∃ t, runSteps n s = some t ∧ t.cycles.toNat = n % s.cfg.cyclesPerFrame.toNat ∧
      frameSignals n s = n / s.cfg.cyclesPerFrame.toNat

/-- R72, S6: a CALL whose target holds `;` returns, in two steps, to exactly the address after the CALL, with the return stack as it was
(where the pushed return address does not overwrite the target word). -/
def Obligations.CallThenReturnComesBack : Prop :=
  ∀ (s : State) (off : BitVec 28), s.halted = false → s.mem.wf = true →
    decodeWord s.cfg.primCodes (readWord s s.pc) = .ok (.call off) →
    decodeWord s.cfg.primCodes (readWord s (relativeTarget ((s.pc + 4#32) &&& 0x000FFFFC#32) off)) = .ok .semi →
    ¬ inCell (s.rsp - 4#32) (relativeTarget ((s.pc + 4#32) &&& 0x000FFFFC#32) off) →
    ∃ t, runSteps 2 s = some t ∧ t.halted = false ∧ t.pc = (s.pc + 4#32) &&& 0x000FFFFC#32 ∧ t.rsp = s.rsp ∧
      t.dsp = s.dsp

/-! ## Halting, Reset and the host -/

/-- R154: while halted every step changes nothing and returns 0 and Execute returns at once; no instruction step and no host call other
than Reset clears `halted` or changes the record; Reset clears it. -/
def Obligations.OnlyResetLeavesTheHaltedState : Prop :=
  (∀ s : State, s.halted = true → step s = .next { s with signal := 0#32 }) ∧
  (∀ (s : State) (bps : Breakpoints), s.halted = true → execute bps s = some (.halted, s)) ∧
  (∀ (c : HostCall) (q q' : Session) (a : HostAnswer), q.state.halted = true → c ≠ .reset →
    Session.call c q = .next (a, q') →
    q'.state.halted = true ∧ q'.state.haltCause = q.state.haltCause ∧ q'.state.haltInfo = q.state.haltInfo) ∧
  (∀ q : Session, ∃ q', Session.call .reset q = .next (.done, q') ∧ q'.state.halted = false) ∧
  (∀ (q : Session) (addr v : Word), Session.call .status q = .next (.snapshot (status q.state), q) ∧
    Session.call (.peek addr) q = .next (.word (readWord q.state addr), q) ∧
    Session.call (.poke addr v) q = .next (.done, { q with state := writeWord addr v q.state }))

/-- R180: Reset, from any state. -/
def Obligations.ResetEstablishesTheEntryState : Prop :=
  ∀ s : State,
    (resetOp s).halted = false ∧ (resetOp s).cycles = 0#32 ∧ (resetOp s).dsp = s.cfg.rstDsp - 4#32 ∧
    (resetOp s).rsp = s.cfg.rstRsp ∧
    (resetOp s).pc = (s.cfg.relocBase + readWord s 8#32) &&& 0x000FFFFC#32 ∧
    (resetOp s).mem = (writeWord (s.cfg.rstDsp - 4#32) s.cfg.relocBase s).mem ∧
    (resetOp s).bridgeCalls = s.bridgeCalls ++ [.reset] ∧ (resetOp s).cfg = s.cfg ∧
    sameBytesOutside [s.cfg.rstDsp - 4#32] s (resetOp s) ∧
    (s.mem.wf = true → cellD (resetOp s) 0 = s.cfg.relocBase)

/-- log 1, log 2, log 8: the model's State.reset is what the Reset operation leaves at power-up under the reference configuration with a
memory that lists nothing, but for the halt record (unspecified) and the count of free values. -/
def Obligations.ResetStateIsWhatResetLeaves : Prop :=
  { resetOp (Session.powerUp Config.ref [] []).state with
    haltCause := State.reset.haltCause, haltInfo := State.reset.haltInfo, draws := State.reset.draws } = State.reset

/-- R181, R166: before the first Reset, Step and Execute have no meaning: the session refuses them (the model's form, log 11). Reset gives
them one: Step is the machine's step, Execute the driver, refused only where the driver does not return (log 13). -/
def Obligations.StepsHaveNoMeaningBeforeTheFirstReset : Prop :=
  (∀ (q : Session) (bps : Breakpoints), q.resetDone = false →
    Session.call .step q = .refused .beforeFirstReset ∧ Session.call (.execute bps) q = .refused .beforeFirstReset) ∧
  (∀ q : Session, Session.call .reset q = .next (.done, { state := resetOp q.state, resetDone := true })) ∧
  (∀ q : Session, q.resetDone = true → ∃ t, step q.state = .next t ∧
    Session.call .step q = .next (.signal t.signal, { q with state := t })) ∧
  (∀ (q : Session) (bps : Breakpoints), q.resetDone = true →
    (∀ r t, execute bps q.state = some (r, t) →
      Session.call (.execute bps) q = .next (.ran r, { q with state := t })) ∧
    (execute bps q.state = none → Session.call (.execute bps) q = .refused .illegalConfig))

/-- R161: the driver steps first and then tests, in this order: halted, frame, breakpoint; then it goes on. FRAME_RATE is not 0 (R5). -/
def Obligations.ExecuteStepsThenTestsHaltFrameBreakpoint : Prop :=
  ∀ (bps : Breakpoints) (s : State), s.cfg.frameRate ≠ 0#32 →
    (s.halted = true → execute bps s = some (.halted, s)) ∧
    (∀ t, s.halted = false → step s = .next t → execute bps s =
      if t.halted = true then some (.halted, t)
      else if t.signal ≠ 0#32 then some (.frame t.signal, t)
      else if bps.hit t.pc = true then some (.breakpoint, t)
      else execute bps t)

/-- R161: a call executes at most CYCLES_PER_FRAME steps, so it always returns. -/
def Obligations.ExecuteReturnsWithinTheBudget : Prop :=
  ∀ (bps : Breakpoints) (s : State), s.cfg.wf = true → s.cyclesInRange = true →
    ∃ r t, executeWithin bps s.cfg.cyclesPerFrame.toNat s = some (r, t) ∧ execute bps s = some (r, t)

/-- R162: a breakpoint matches when `pc` equals it exactly, 0 like any other; one that is no word-aligned address of the memory never
matches a legal `pc`. -/
def Obligations.BreakpointsMatchExactly : Prop :=
  (∀ pc a b : Word, Breakpoints.none.hit pc = false ∧ ((Breakpoints.one a).hit pc = true ↔ pc = a) ∧
    ((Breakpoints.two a b).hit pc = true ↔ pc = a ∨ pc = b)) ∧
  (∀ pc a : Word, pc &&& 0x000FFFFC#32 = pc → a &&& 0x000FFFFC#32 ≠ a → (Breakpoints.one a).hit pc = false)

/-- R163: StepOverTarget inspects the class of the word at `pc`. -/
def Obligations.StepOverTargetIsAfterACall : Prop :=
  ∀ s : State,
    ((readWord s s.pc).extractLsb' 28 4 = 8#4 → stepOverTarget s = some ((s.pc + 4#32) &&& 0x000FFFFC#32)) ∧
    ((readWord s s.pc).extractLsb' 28 4 ≠ 8#4 → stepOverTarget s = none) ∧
    (∀ resetDone, Session.call .stepOverTarget { state := s, resetDone := resetDone } =
      .next (.target (stepOverTarget s), { state := s, resetDone := resetDone }))

/-- R165, R45: Peek reads what Poke wrote in the same word, and a Poke changes no byte outside it; neither can halt. -/
def Obligations.PeekSeesWhatPokeWrote : Prop :=
  ∀ (s : State) (a b v : Word), s.mem.wf = true →
    peek b (poke a v s) = (if a.extractLsb' 2 18 = b.extractLsb' 2 18 then v else peek b s) ∧
    poke a v s = { s with mem := (poke a v s).mem } ∧ sameBytesOutside [a] s (poke a v s)

/-- R182: the image is loaded verbatim from byte 0; every other byte is as before; a longer image than the memory is refused. -/
def Obligations.ImageLoadsVerbatimFromByteZero : Prop :=
  (∀ (bytes : List Byte) (s : State), s.mem.wf = true → bytes.length ≤ 2 ^ 20 →
    ∃ t, loadImage bytes s = some t ∧ t.mem.wf = true ∧ t = { s with mem := t.mem } ∧
      ∀ a : Word, readByte t a = match bytes[byteIndex a]? with
        | some b => b
        | none => readByte s a) ∧
  (∀ (bytes : List Byte) (q : Session), 2 ^ 20 < bytes.length →
    Session.call (.loadImage bytes) q = .refused .imageTooLong)
end

