-- ==== Sys2Proof/Laws/Codec.lean ====
section
/-! SUPPORT. Laws of the fields of a word (R51 to R54), of `PRIM_CODE` (R56) and of the encoder's words, as numbers. -/

namespace Sys2Proof

/-! ## Fields as numbers -/

theorem classOf_toNat (w : Word) : (classOf w).toNat = w.toNat / 2 ^ 28 := by
  have := w.isLt
  simp [classOf, BitVec.extractLsb'_toNat, Nat.shiftRight_eq_div_pow]
  omega

theorem imm31Of_toNat (w : Word) : (imm31Of w).toNat = w.toNat % 2 ^ 31 := by
  simp [imm31Of, BitVec.extractLsb'_toNat]

theorem off28Of_toNat (w : Word) : (off28Of w).toNat = w.toNat % 2 ^ 28 := by
  simp [off28Of, BitVec.extractLsb'_toNat]

theorem codeOf_toNat (w : Word) : (codeOf w).toNat = w.toNat % 2 ^ 8 := by
  simp [codeOf, BitVec.extractLsb'_toNat]

/-- Two 4-bit classes are equal when their numbers are. -/
theorem classOf_eq_iff (w : Word) (c : BitVec 4) : classOf w = c ↔ w.toNat / 2 ^ 28 = c.toNat := by
  rw [← BitVec.toNat_inj, classOf_toNat]

/-! ## The encoder's words as numbers -/

theorem encode_lit_toNat (codes : List Byte) (imm : BitVec 31) : (encode codes (.lit imm)).toNat = imm.toNat := by
  have h : (encode codes (.lit imm)).toNat = (0#1 ++ imm : BitVec (1 + 31)).toNat := rfl
  rw [h, BitVec.toNat_append, ← Nat.shiftLeft_add_eq_or_of_lt imm.isLt]
  simp

theorem classWord_toNat (c : BitVec 4) (off : BitVec 28) :
    (c ++ off : BitVec (4 + 28)).toNat = c.toNat * 2 ^ 28 + off.toNat := by
  rw [BitVec.toNat_append, ← Nat.shiftLeft_add_eq_or_of_lt off.isLt, Nat.shiftLeft_eq]

theorem encode_call_toNat (codes : List Byte) (off : BitVec 28) :
    (encode codes (.call off)).toNat = 8 * 2 ^ 28 + off.toNat := classWord_toNat 8#4 off

theorem encode_bra_toNat (codes : List Byte) (off : BitVec 28) :
    (encode codes (.bra off)).toNat = 9 * 2 ^ 28 + off.toNat := classWord_toNat 9#4 off

theorem encode_bz_toNat (codes : List Byte) (off : BitVec 28) :
    (encode codes (.bz off)).toNat = 10 * 2 ^ 28 + off.toNat := classWord_toNat 10#4 off

theorem primWord_toNat (codes : List Byte) (k : Nat) :
    (primWord codes k).toNat = 15 * 2 ^ 28 + (codes.getD k 0#8).toNat := by
  have h : (primWord codes k).toNat = (0xF00000#24 ++ codes.getD k 0#8 : BitVec (24 + 8)).toNat := rfl
  rw [h, BitVec.toNat_append, ← Nat.shiftLeft_add_eq_or_of_lt (codes.getD k 0#8).isLt, Nat.shiftLeft_eq]
  simp

/-- The canonical word of a primitive. -/
theorem encode_of_primNumber (codes : List Byte) {i : Instr} {k : Nat} (h : i.primNumber = some k) :
    encode codes i = primWord codes k := by
  cases i <;> simp only [Instr.primNumber, Option.some.injEq, reduceCtorEq] at h <;> subst h <;> rfl

/-! ## The primitive table (R56) -/

theorem primInstrs_length : primInstrs.length = numPrims := rfl

/-- The table of primitives and their numbers agree. -/
theorem primInstrs_getElem_iff (i : Instr) (k : Nat) : primInstrs[k]? = some i ↔ i.primNumber = some k := by
  constructor
  · intro h
    have hk : k < 31 := by
      have := List.getElem?_eq_some_iff.mp h
      exact this.1
    interval_cases k <;> simp only [primInstrs, List.getElem?_cons_zero, List.getElem?_cons_succ,
      Option.some.injEq] at h <;> subst h <;> rfl
  · intro h
    cases i <;> simp only [Instr.primNumber, Option.some.injEq, reduceCtorEq] at h <;> subst h <;> rfl

theorem primNumber_lt {i : Instr} {k : Nat} (h : i.primNumber = some k) : k < numPrims := by
  have := (primInstrs_getElem_iff i k).mpr h
  exact (List.getElem?_eq_some_iff.mp this).1

/-- Looking a code up in a table of names: the first position that has it. -/
theorem find_zip_eq {α : Type} (xs : List α) (codes : List Byte) (c : Byte) (x : α) :
    ((xs.zip codes).find? (fun p => decide (p.2 = c))).map Prod.fst = some x ↔
      ∃ k, xs[k]? = some x ∧ codes[k]? = some c ∧ c ∉ codes.take k := by
  induction xs generalizing codes with
  | nil => simp
  | cons y ys ih =>
    cases codes with
    | nil => simp
    | cons d ds =>
      simp only [List.zip_cons_cons, List.find?_cons]
      by_cases hd : d = c
      · subst hd
        simp only [decide_true, Option.map_some, Option.some.injEq]
        constructor
        · rintro rfl; exact ⟨0, rfl, rfl, by simp⟩
        · rintro ⟨k, h1, h2, h3⟩
          cases k with
          | zero => simpa using h1
          | succ k => simp at h3
      · simp only [hd, decide_false]
        rw [ih]
        constructor
        · rintro ⟨k, h1, h2, h3⟩
          exact ⟨k + 1, by simpa using h1, by simpa using h2, by simp [h3, Ne.symm hd]⟩
        · rintro ⟨k, h1, h2, h3⟩
          cases k with
          | zero => simp at h2; exact absurd h2 hd
          | succ k =>
            refine ⟨k, by simpa using h1, by simpa using h2, ?_⟩
            simp only [List.take_succ_cons, List.mem_cons, not_or] at h3
            exact h3.2

/-- All that `PRIM_CODE^-1` says: the first position of the code names the primitive. -/
theorem primOfCode_eq_some_iff (codes : List Byte) (c : Byte) (i : Instr) :
    primOfCode codes c = some i ↔ ∃ k, i.primNumber = some k ∧ codes[k]? = some c ∧ c ∉ codes.take k := by
  simp only [primOfCode, find_zip_eq, primInstrs_getElem_iff]

/-- Every number below 31 is a primitive's. -/
theorem exists_primNumber {k : Nat} (h : k < numPrims) : ∃ i : Instr, i.primNumber = some k := by
  have : ∃ i, primInstrs[k]? = some i := ⟨_, List.getElem?_eq_getElem (by rw [primInstrs_length]; exact h)⟩
  obtain ⟨i, hi⟩ := this
  exact ⟨i, (primInstrs_getElem_iff i k).mp hi⟩

/-- A code that stands in the list has a first position. -/
theorem exists_first_position {codes : List Byte} {c : Byte} (h : c ∈ codes) :
    ∃ k, codes[k]? = some c ∧ c ∉ codes.take k := by
  induction codes with
  | nil => simp at h
  | cons d ds ih =>
    by_cases hd : d = c
    · exact ⟨0, by simp [hd], by simp⟩
    · obtain ⟨k, h1, h2⟩ := ih (by simpa [Ne.symm hd] using h)
      exact ⟨k + 1, by simpa using h1, by simp [h2, Ne.symm hd]⟩

/-- A code is unassigned exactly when no position of `PRIM_CODE` has it. -/
theorem primOfCode_eq_none_iff (codes : List Byte) (c : Byte) (hl : codes.length = numPrims) :
    primOfCode codes c = none ↔ c ∉ codes := by
  constructor
  · intro h hc
    obtain ⟨k, h1, h2⟩ := exists_first_position hc
    have hk : k < numPrims := by rw [← hl]; exact (List.getElem?_eq_some_iff.mp h1).1
    obtain ⟨i, hi⟩ := exists_primNumber hk
    have := (primOfCode_eq_some_iff codes c i).mpr ⟨k, hi, h1, h2⟩
    rw [h] at this; cases this
  · intro hc
    by_contra hne
    obtain ⟨i, hi⟩ := Option.ne_none_iff_exists'.mp hne
    obtain ⟨k, _, h2, _⟩ := (primOfCode_eq_some_iff codes c i).mp hi
    exact hc (List.mem_of_getElem? h2)

theorem primOfCode_of_not_mem {codes : List Byte} {c : Byte} (hc : c ∉ codes) : primOfCode codes c = none := by
  by_contra hne
  obtain ⟨i, hi⟩ := Option.ne_none_iff_exists'.mp hne
  obtain ⟨k, _, h2, _⟩ := (primOfCode_eq_some_iff codes c i).mp hi
  exact hc (List.mem_of_getElem? h2)

end Sys2Proof
end

