-- ==== Sys2Proof/Laws/Words.lean ====
section
/-! SUPPORT. Laws of the byte order (R33) and of the address reductions (R11, R31, R32). -/

namespace Sys2Proof.Machine

/-! ## Byte order -/

/-- A word as a number, from its bytes. -/
theorem wordOfBytes_toNat (o : ByteOrder) (b0 b1 b2 b3 : Byte) : (wordOfBytes o b0 b1 b2 b3).toNat =
    match o with
    | .little => b0.toNat + 256 * b1.toNat + 65536 * b2.toNat + 16777216 * b3.toNat
    | .big => b3.toNat + 256 * b2.toNat + 65536 * b1.toNat + 16777216 * b0.toNat := by
  have key : ∀ a b c d : Byte, (a ++ b ++ c ++ d : BitVec (8 + 8 + 8 + 8)).toNat =
      d.toNat + 256 * c.toNat + 65536 * b.toNat + 16777216 * a.toNat := by
    intro a b c d
    rw [BitVec.toNat_append, BitVec.toNat_append, BitVec.toNat_append,
      ← Nat.shiftLeft_add_eq_or_of_lt d.isLt, ← Nat.shiftLeft_add_eq_or_of_lt c.isLt,
      ← Nat.shiftLeft_add_eq_or_of_lt b.isLt]
    simp only [Nat.shiftLeft_eq]; omega
  cases o
  · exact key b3 b2 b1 b0
  · exact key b0 b1 b2 b3

/-- A byte of a word, as a number. -/
theorem byteOfWord_toNat (o : ByteOrder) (w : Word) (k : Nat) : (byteOfWord o w k).toNat =
    match o with
    | .little => w.toNat / 2 ^ (8 * k) % 256
    | .big => w.toNat / 2 ^ (24 - 8 * k) % 256 := by
  cases o <;> simp [byteOfWord, BitVec.extractLsb'_toNat, Nat.shiftRight_eq_div_pow]

@[simp] theorem wordOfBytes_byteOfWord (o : ByteOrder) (w : Word) :
    wordOfBytes o (byteOfWord o w 0) (byteOfWord o w 1) (byteOfWord o w 2) (byteOfWord o w 3) = w := by
  apply BitVec.eq_of_toNat_eq
  have := w.isLt
  rw [wordOfBytes_toNat]
  cases o <;> simp [byteOfWord_toNat] <;> omega

/-- R33: the four bytes of a word made of four bytes. -/
theorem byteOfWord_wordOfBytes (o : ByteOrder) (b0 b1 b2 b3 : Byte) :
    byteOfWord o (wordOfBytes o b0 b1 b2 b3) 0 = b0 ∧ byteOfWord o (wordOfBytes o b0 b1 b2 b3) 1 = b1 ∧
    byteOfWord o (wordOfBytes o b0 b1 b2 b3) 2 = b2 ∧ byteOfWord o (wordOfBytes o b0 b1 b2 b3) 3 = b3 := by
  have h0 := b0.isLt; have h1 := b1.isLt; have h2 := b2.isLt; have h3 := b3.isLt
  refine ⟨?_, ?_, ?_, ?_⟩ <;> (apply BitVec.eq_of_toNat_eq; rw [byteOfWord_toNat, wordOfBytes_toNat]) <;>
    cases o <;> simp <;> omega

/-! ## Addresses as numbers -/

theorem byteIndex_eq (a : Word) : byteIndex a = a.toNat % 1048576 := by
  simp [byteIndex, BitVec.extractLsb'_toNat]

theorem wordBase_eq (a : Word) : wordBase a = 4 * (a.toNat / 4 % 262144) := by
  simp [wordBase, BitVec.extractLsb'_toNat, Nat.shiftRight_eq_div_pow]

theorem byteIndex_lt (a : Word) : byteIndex a < memBytes := by
  rw [byteIndex_eq, memBytes]; omega

theorem wordBase_lt (a : Word) : wordBase a + 3 < memBytes := by
  rw [wordBase_eq, memBytes]; omega

theorem wordBase_mod_four (a : Word) : wordBase a % 4 = 0 := by
  rw [wordBase_eq]; omega

/-- A byte lies in the word that holds it: its index is the word's base plus its lane. -/
theorem byteIndex_eq_wordBase_add (a : Word) : byteIndex a = wordBase a + a.toNat % 4 := by
  rw [byteIndex_eq, wordBase_eq]; omega

/-- R11: the mask keeps bits 19 to 2. -/
theorem toNat_and_pcMask (w : Word) : (w &&& pcMask).toNat = 4 * (w.toNat / 4 % 262144) := by
  have h : w &&& pcMask = (w.extractLsb' 2 18).setWidth 32 <<< 2 := by
    apply BitVec.eq_of_getLsbD_eq; intro i hi
    interval_cases i <;> simp [pcMask]
  rw [h]
  simp [BitVec.extractLsb'_toNat, Nat.shiftRight_eq_div_pow, Nat.shiftLeft_eq]
  omega

@[simp] theorem and_pcMask_idem (w : Word) : w &&& pcMask &&& pcMask = w &&& pcMask := by
  rw [BitVec.and_assoc, BitVec.and_self]

@[simp] theorem wordBase_and_pcMask (w : Word) : wordBase (w &&& pcMask) = wordBase w := by
  rw [wordBase_eq, wordBase_eq, toNat_and_pcMask]; omega

/-- Two words a multiple of 4 apart by less than the memory lie in different cells. -/
theorem wordBase_add_four (a : Word) : wordBase (a + 4#32) = (wordBase a + 4) % memBytes := by
  rw [wordBase_eq, wordBase_eq, memBytes, BitVec.toNat_add]
  have := a.isLt
  simp; omega

theorem wordBase_sub_four (a : Word) : wordBase (a - 4#32) = (wordBase a + (memBytes - 4)) % memBytes := by
  rw [wordBase_eq, wordBase_eq, memBytes, BitVec.toNat_sub]
  have := a.isLt
  simp; omega

theorem wordBase_add_four_ne (a : Word) : wordBase (a + 4#32) ≠ wordBase a := by
  have := wordBase_lt a
  rw [wordBase_add_four]; simp only [memBytes] at *; omega

theorem wordBase_sub_four_ne (a : Word) : wordBase (a - 4#32) ≠ wordBase a := by
  have := wordBase_lt a
  rw [wordBase_sub_four]; simp only [memBytes] at *; omega

theorem wordBase_add_eight_ne (a : Word) : wordBase (a + 4#32 + 4#32) ≠ wordBase a := by
  have := wordBase_lt a
  rw [wordBase_add_four, wordBase_add_four]; simp only [memBytes] at *; omega

/-- Distinct cells do not overlap. -/
theorem wordBase_apart {a b : Word} (h : wordBase a ≠ wordBase b) :
    wordBase a + 3 < wordBase b ∨ wordBase b + 3 < wordBase a := by
  have ha := wordBase_mod_four a
  have hb := wordBase_mod_four b
  omega

@[simp] theorem sub_add_four (a : Word) : a - 4#32 + 4#32 = a := BitVec.sub_add_cancel a 4#32

@[simp] theorem add_sub_four (a : Word) : a + 4#32 - 4#32 = a := BitVec.add_sub_cancel a 4#32

end Sys2Proof.Machine
end

