-- ==== Sys2Proof/Laws/Memory.lean ====
section
/-! SUPPORT. Laws of the memory: read after write, frames, the canonical form and extensionality (R31 to R33). -/

namespace Sys2Proof.Machine

/-! ## One byte -/

theorem byteAt_of_lt {m : Memory} {low k : Nat} (h : Memory.wfFrom low m) (hk : k < low) :
    Memory.byteAt m k = unlistedByte := by
  induction m generalizing low with
  | nil => rfl
  | cons c rest ih =>
    simp only [Memory.wfFrom, Bool.and_eq_true, decide_eq_true_eq] at h
    have hne : c.1 ≠ k := by omega
    simp only [Memory.byteAt, if_neg hne]
    exact ih h.2 (by omega)

theorem wfFrom_mono {m : Memory} {low low' : Nat} (h : Memory.wfFrom low m) (hl : low' ≤ low) :
    Memory.wfFrom low' m := by
  cases m with
  | nil => rfl
  | cons c rest =>
    simp only [Memory.wfFrom, Bool.and_eq_true, decide_eq_true_eq] at h ⊢
    exact ⟨⟨⟨by omega, h.1.1.2⟩, h.1.2⟩, h.2⟩

/-- A write leaves every other byte alone. -/
theorem byteAt_putByte_other (m : Memory) {k j : Nat} (v : Byte) (h : j ≠ k) :
    Memory.byteAt (Memory.putByte m k v) j = Memory.byteAt m j := by
  induction m with
  | nil => simp only [Memory.putByte]; split <;> simp [Memory.byteAt, Ne.symm h]
  | cons c rest ih =>
    simp only [Memory.putByte]
    split
    · split <;> simp [Memory.byteAt, Ne.symm h]
    · split
      · rename_i hk
        have : c.1 ≠ j := by omega
        split <;> simp [Memory.byteAt, this]
      · simp [Memory.byteAt, ih]

/-- A read after a write to the same place gives the value written. -/
theorem byteAt_putByte_same {m : Memory} {low k : Nat} (v : Byte) (h : Memory.wfFrom low m) :
    Memory.byteAt (Memory.putByte m k v) k = v := by
  induction m generalizing low with
  | nil => simp only [Memory.putByte]; split <;> simp_all [Memory.byteAt]
  | cons c rest ih =>
    have h' := h
    simp only [Memory.wfFrom, Bool.and_eq_true, decide_eq_true_eq] at h'
    simp only [Memory.putByte]
    split
    · split
      · rename_i hlt hv
        have hne : c.1 ≠ k := by omega
        rw [hv]
        simp only [Memory.byteAt, if_neg hne]
        exact byteAt_of_lt h'.2 (by omega)
      · simp [Memory.byteAt]
    · split
      · rename_i hk
        split
        · rename_i hv
          rw [hv]
          exact byteAt_of_lt h'.2 (by omega)
        · simp [Memory.byteAt, hk]
      · rename_i hk
        have hne : c.1 ≠ k := fun e => hk e.symm
        simp only [Memory.byteAt, if_neg hne]
        exact ih h'.2

/-- Every write keeps the canonical form. -/
theorem wfFrom_putByte {m : Memory} {low k : Nat} (v : Byte) (h : Memory.wfFrom low m) (hl : low ≤ k)
    (hk : k < memBytes) : Memory.wfFrom low (Memory.putByte m k v) := by
  induction m generalizing low with
  | nil => simp only [Memory.putByte]; split <;> simp_all [Memory.wfFrom]
  | cons c rest ih =>
    have h' := h
    simp only [Memory.wfFrom, Bool.and_eq_true, decide_eq_true_eq] at h'
    simp only [Memory.putByte]
    split
    · rename_i hlt
      split
      · exact h
      · rename_i hv
        simp only [Memory.wfFrom, Bool.and_eq_true, decide_eq_true_eq]
        exact ⟨⟨⟨hl, hk⟩, hv⟩, ⟨⟨by omega, h'.1.1.2⟩, h'.1.2⟩, h'.2⟩
    · split
      · rename_i hka
        split
        · exact wfFrom_mono h'.2 (by omega)
        · rename_i hv
          simp only [Memory.wfFrom, Bool.and_eq_true, decide_eq_true_eq]
          exact ⟨⟨h'.1.1, hv⟩, h'.2⟩
      · simp only [Memory.wfFrom, Bool.and_eq_true, decide_eq_true_eq]
        exact ⟨h'.1, ih h'.2 (by omega)⟩

/-- Memories in canonical form that read alike are equal. -/
theorem memory_ext_from {m n : Memory} {low : Nat} (hm : Memory.wfFrom low m) (hn : Memory.wfFrom low n)
    (h : ∀ k, Memory.byteAt m k = Memory.byteAt n k) : m = n := by
  induction m generalizing n low with
  | nil =>
    cases n with
    | nil => rfl
    | cons d rest =>
      have hn' := hn
      simp only [Memory.wfFrom, Bool.and_eq_true, decide_eq_true_eq] at hn'
      have := h d.1
      simp only [Memory.byteAt, if_true] at this
      exact absurd this.symm hn'.1.2
  | cons c mr ih =>
    have hm' := hm
    simp only [Memory.wfFrom, Bool.and_eq_true, decide_eq_true_eq] at hm'
    cases n with
    | nil =>
      have := h c.1
      simp only [Memory.byteAt, if_true] at this
      exact absurd this hm'.1.2
    | cons d nr =>
      have hn' := hn
      simp only [Memory.wfFrom, Bool.and_eq_true, decide_eq_true_eq] at hn'
      have hkey : c.1 = d.1 := by
        by_contra hne
        rcases Nat.lt_or_gt_of_ne hne with hlt | hlt
        · have := h c.1
          simp only [Memory.byteAt, if_true, if_neg (Ne.symm hne)] at this
          rw [byteAt_of_lt hn'.2 (by omega)] at this
          exact hm'.1.2 this
        · have := h d.1
          simp only [Memory.byteAt, if_true, if_neg hne] at this
          rw [byteAt_of_lt hm'.2 (by omega)] at this
          exact hn'.1.2 this.symm
      have hval : c.2 = d.2 := by
        have := h c.1
        simpa only [Memory.byteAt, hkey, if_true] using this
      have hcd : c = d := Prod.ext hkey hval
      subst hcd
      congr 1
      refine ih hm'.2 hn'.2 (fun k => ?_)
      by_cases hk : c.1 = k
      · rw [byteAt_of_lt hm'.2 (by omega), byteAt_of_lt hn'.2 (by omega)]
      · have := h k
        simpa only [Memory.byteAt, if_neg hk] using this

theorem memory_ext {m n : Memory} (hm : m.wf) (hn : n.wf) (h : ∀ k, m.byteAt k = n.byteAt k) : m = n :=
  memory_ext_from hm hn h

theorem wf_putByte {m : Memory} {k : Nat} (v : Byte) (h : m.wf) (hk : k < memBytes) : (m.putByte k v).wf :=
  wfFrom_putByte v h (Nat.zero_le k) hk

/-! ## One word -/

/-- A word write changes only the four bytes from `base` up. -/
theorem byteAt_putWord_other (o : ByteOrder) (m : Memory) {base k : Nat} (v : Word)
    (h : k < base ∨ base + 3 < k) : (m.putWord o base v).byteAt k = m.byteAt k := by
  simp only [Memory.putWord]
  rw [byteAt_putByte_other _ _ (by omega), byteAt_putByte_other _ _ (by omega),
    byteAt_putByte_other _ _ (by omega), byteAt_putByte_other _ _ (by omega)]

theorem wf_putWord (o : ByteOrder) {m : Memory} {base : Nat} (v : Word) (h : m.wf) (hb : base + 3 < memBytes) :
    (m.putWord o base v).wf := by
  simp only [Memory.putWord]
  exact wf_putByte _ (wf_putByte _ (wf_putByte _ (wf_putByte _ h (by omega)) (by omega)) (by omega)) hb

/-- What a word write leaves in each of its four bytes. -/
theorem byteAt_putWord_lane (o : ByteOrder) {m : Memory} {base : Nat} (v : Word) (h : m.wf)
    (hb : base + 3 < memBytes) (k : Nat) (hk : k < 4) :
    (m.putWord o base v).byteAt (base + k) = byteOfWord o v k := by
  have h0 := wf_putByte (byteOfWord o v 0) h (k := base) (by omega)
  have h1 := wf_putByte (byteOfWord o v 1) h0 (k := base + 1) (by omega)
  have h2 := wf_putByte (byteOfWord o v 2) h1 (k := base + 2) (by omega)
  simp only [Memory.putWord]
  interval_cases k
  · rw [byteAt_putByte_other _ _ (by omega), byteAt_putByte_other _ _ (by omega),
      byteAt_putByte_other _ _ (by omega)]
    exact byteAt_putByte_same _ h
  · rw [byteAt_putByte_other _ _ (by omega), byteAt_putByte_other _ _ (by omega)]
    exact byteAt_putByte_same _ h0
  · rw [byteAt_putByte_other _ _ (by omega)]
    exact byteAt_putByte_same _ h1
  · exact byteAt_putByte_same _ h2

theorem wordAt_putWord_same (o : ByteOrder) {m : Memory} {base : Nat} (v : Word) (h : m.wf)
    (hb : base + 3 < memBytes) : (m.putWord o base v).wordAt o base = v := by
  have lane := byteAt_putWord_lane o v h hb
  have h0 := lane 0 (by omega)
  rw [Nat.add_zero] at h0
  rw [Memory.wordAt, h0, lane 1 (by omega), lane 2 (by omega), lane 3 (by omega), wordOfBytes_byteOfWord]

theorem wordAt_putWord_other (o o' : ByteOrder) (m : Memory) {base k : Nat} (v : Word)
    (h : k + 3 < base ∨ base + 3 < k) : (m.putWord o base v).wordAt o' k = m.wordAt o' k := by
  simp only [Memory.wordAt]
  rw [byteAt_putWord_other o m v (by omega), byteAt_putWord_other o m v (by omega),
    byteAt_putWord_other o m v (by omega), byteAt_putWord_other o m v (by omega)]

/-- The bytes of the word at `base`. -/
theorem byteOfWord_wordAt (o : ByteOrder) (m : Memory) (base k : Nat) (hk : k < 4) :
    byteOfWord o (m.wordAt o base) k = m.byteAt (base + k) := by
  simp only [Memory.wordAt]
  interval_cases k
  · exact (byteOfWord_wordOfBytes o _ _ _ _).1
  · exact (byteOfWord_wordOfBytes o _ _ _ _).2.1
  · exact (byteOfWord_wordOfBytes o _ _ _ _).2.2.1
  · exact (byteOfWord_wordOfBytes o _ _ _ _).2.2.2

/-- Every byte of the memory after a word write. -/
theorem byteAt_putWord (o : ByteOrder) {m : Memory} {base : Nat} (v : Word) (h : m.wf) (hb : base + 3 < memBytes)
    (k : Nat) : (m.putWord o base v).byteAt k =
      if base ≤ k ∧ k < base + 4 then byteOfWord o v (k - base) else m.byteAt k := by
  split
  · rename_i hk
    have := byteAt_putWord_lane o v h hb (k - base) (by omega)
    rwa [show base + (k - base) = k by omega] at this
  · exact byteAt_putWord_other o m v (by omega)

/-- Writing back the word that is there changes nothing. -/
theorem putWord_wordAt (o : ByteOrder) {m : Memory} {base : Nat} (h : m.wf) (hb : base + 3 < memBytes) :
    m.putWord o base (m.wordAt o base) = m := by
  refine memory_ext (wf_putWord o _ h hb) h (fun k => ?_)
  rw [byteAt_putWord o _ h hb]
  split
  · rw [byteOfWord_wordAt o m base _ (by omega)]; congr 1; omega
  · rfl

/-- The last write of a word wins. -/
theorem putWord_putWord_same (o : ByteOrder) {m : Memory} {base : Nat} (v w : Word) (h : m.wf)
    (hb : base + 3 < memBytes) : (m.putWord o base v).putWord o base w = m.putWord o base w := by
  have h1 := wf_putWord o v h hb
  refine memory_ext (wf_putWord o w h1 hb) (wf_putWord o w h hb) (fun k => ?_)
  rw [byteAt_putWord o w h1 hb, byteAt_putWord o w h hb, byteAt_putWord o v h hb]
  split <;> rfl

/-- Writes to words apart commute. -/
theorem putWord_comm (o : ByteOrder) {m : Memory} {b c : Nat} (v w : Word) (h : m.wf) (hb : b + 3 < memBytes)
    (hc : c + 3 < memBytes) (hbc : b + 3 < c ∨ c + 3 < b) :
    (m.putWord o b v).putWord o c w = (m.putWord o c w).putWord o b v := by
  have h1 := wf_putWord o v h hb
  have h2 := wf_putWord o w h hc
  refine memory_ext (wf_putWord o w h1 hc) (wf_putWord o v h2 hb) (fun k => ?_)
  rw [byteAt_putWord o w h1 hc, byteAt_putWord o v h hb, byteAt_putWord o v h2 hb, byteAt_putWord o w h hc]
  split <;> split <;> first | rfl | omega

/-! ## The image and the forgotten cells -/

theorem wf_forgetCells (o : ByteOrder) (cells : List Word) {m : Memory} (n : Nat) (h : m.wf) :
    (forgetCells o m cells n).wf := by
  induction cells generalizing m n with
  | nil => exact h
  | cons a rest ih => exact ih (n + 1) (wf_putWord o _ h (wordBase_lt a))

/-- Only the forgotten cells change. -/
theorem byteAt_forgetCells (o : ByteOrder) (cells : List Word) (m : Memory) (n k : Nat)
    (h : ∀ a ∈ cells, k < wordBase a ∨ wordBase a + 3 < k) : (forgetCells o m cells n).byteAt k = m.byteAt k := by
  induction cells generalizing m n with
  | nil => rfl
  | cons a rest ih =>
    simp only [forgetCells]
    rw [ih _ _ (fun b hb => h b (List.mem_cons_of_mem a hb)),
      byteAt_putWord_other o m _ (h a (by simp))]

end Sys2Proof.Machine
end

