-- ==== Sys2Proof/Laws/State.lean ====
section
/-! SUPPORT. The state's small lemmas: what each named update does to each field. -/

namespace Sys2Proof.Machine

variable (s : State)

/-! ## writeByte -/

@[simp] theorem writeByte_pc (a : Word) (v : Byte) : (writeByte a v s).pc = s.pc := rfl

@[simp] theorem writeByte_dsp (a : Word) (v : Byte) : (writeByte a v s).dsp = s.dsp := rfl

@[simp] theorem writeByte_rsp (a : Word) (v : Byte) : (writeByte a v s).rsp = s.rsp := rfl

@[simp] theorem writeByte_cycles (a : Word) (v : Byte) : (writeByte a v s).cycles = s.cycles := rfl

@[simp] theorem writeByte_mem (a : Word) (v : Byte) : (writeByte a v s).mem = s.mem.putByte (byteIndex a) v := rfl

@[simp] theorem writeByte_halted (a : Word) (v : Byte) : (writeByte a v s).halted = s.halted := rfl

@[simp] theorem writeByte_haltCause (a : Word) (v : Byte) : (writeByte a v s).haltCause = s.haltCause := rfl

@[simp] theorem writeByte_haltInfo (a : Word) (v : Byte) : (writeByte a v s).haltInfo = s.haltInfo := rfl

@[simp] theorem writeByte_cfg (a : Word) (v : Byte) : (writeByte a v s).cfg = s.cfg := rfl

@[simp] theorem writeByte_signal (a : Word) (v : Byte) : (writeByte a v s).signal = s.signal := rfl

@[simp] theorem writeByte_bridgeCalls (a : Word) (v : Byte) : (writeByte a v s).bridgeCalls = s.bridgeCalls := rfl

@[simp] theorem writeByte_keyAnswers (a : Word) (v : Byte) : (writeByte a v s).keyAnswers = s.keyAnswers := rfl

@[simp] theorem writeByte_draws (a : Word) (v : Byte) : (writeByte a v s).draws = s.draws := rfl

/-! ## writeWord -/

@[simp] theorem writeWord_pc (a v : Word) : (writeWord a v s).pc = s.pc := rfl

@[simp] theorem writeWord_dsp (a v : Word) : (writeWord a v s).dsp = s.dsp := rfl

@[simp] theorem writeWord_rsp (a v : Word) : (writeWord a v s).rsp = s.rsp := rfl

@[simp] theorem writeWord_cycles (a v : Word) : (writeWord a v s).cycles = s.cycles := rfl

@[simp] theorem writeWord_mem (a v : Word) : (writeWord a v s).mem = s.mem.putWord s.cfg.byteOrder (wordBase a) v := rfl

@[simp] theorem writeWord_halted (a v : Word) : (writeWord a v s).halted = s.halted := rfl

@[simp] theorem writeWord_haltCause (a v : Word) : (writeWord a v s).haltCause = s.haltCause := rfl

@[simp] theorem writeWord_haltInfo (a v : Word) : (writeWord a v s).haltInfo = s.haltInfo := rfl

@[simp] theorem writeWord_cfg (a v : Word) : (writeWord a v s).cfg = s.cfg := rfl

@[simp] theorem writeWord_signal (a v : Word) : (writeWord a v s).signal = s.signal := rfl

@[simp] theorem writeWord_bridgeCalls (a v : Word) : (writeWord a v s).bridgeCalls = s.bridgeCalls := rfl

@[simp] theorem writeWord_keyAnswers (a v : Word) : (writeWord a v s).keyAnswers = s.keyAnswers := rfl

@[simp] theorem writeWord_draws (a v : Word) : (writeWord a v s).draws = s.draws := rfl

/-! ## writePc -/

@[simp] theorem writePc_pc (a : Word) : (writePc a s).pc = a &&& pcMask := rfl

@[simp] theorem writePc_dsp (a : Word) : (writePc a s).dsp = s.dsp := rfl

@[simp] theorem writePc_rsp (a : Word) : (writePc a s).rsp = s.rsp := rfl

@[simp] theorem writePc_cycles (a : Word) : (writePc a s).cycles = s.cycles := rfl

@[simp] theorem writePc_mem (a : Word) : (writePc a s).mem = s.mem := rfl

@[simp] theorem writePc_halted (a : Word) : (writePc a s).halted = s.halted := rfl

@[simp] theorem writePc_haltCause (a : Word) : (writePc a s).haltCause = s.haltCause := rfl

@[simp] theorem writePc_haltInfo (a : Word) : (writePc a s).haltInfo = s.haltInfo := rfl

@[simp] theorem writePc_cfg (a : Word) : (writePc a s).cfg = s.cfg := rfl

@[simp] theorem writePc_signal (a : Word) : (writePc a s).signal = s.signal := rfl

@[simp] theorem writePc_bridgeCalls (a : Word) : (writePc a s).bridgeCalls = s.bridgeCalls := rfl

@[simp] theorem writePc_keyAnswers (a : Word) : (writePc a s).keyAnswers = s.keyAnswers := rfl

@[simp] theorem writePc_draws (a : Word) : (writePc a s).draws = s.draws := rfl

/-! ## advancePc -/

@[simp] theorem advancePc_pc : (advancePc s).pc = (s.pc + 4#32) &&& pcMask := rfl

@[simp] theorem advancePc_dsp : (advancePc s).dsp = s.dsp := rfl

@[simp] theorem advancePc_rsp : (advancePc s).rsp = s.rsp := rfl

@[simp] theorem advancePc_cycles : (advancePc s).cycles = s.cycles := rfl

@[simp] theorem advancePc_mem : (advancePc s).mem = s.mem := rfl

@[simp] theorem advancePc_halted : (advancePc s).halted = s.halted := rfl

@[simp] theorem advancePc_haltCause : (advancePc s).haltCause = s.haltCause := rfl

@[simp] theorem advancePc_haltInfo : (advancePc s).haltInfo = s.haltInfo := rfl

@[simp] theorem advancePc_cfg : (advancePc s).cfg = s.cfg := rfl

@[simp] theorem advancePc_signal : (advancePc s).signal = s.signal := rfl

@[simp] theorem advancePc_bridgeCalls : (advancePc s).bridgeCalls = s.bridgeCalls := rfl

@[simp] theorem advancePc_keyAnswers : (advancePc s).keyAnswers = s.keyAnswers := rfl

@[simp] theorem advancePc_draws : (advancePc s).draws = s.draws := rfl

/-! ## pushD -/

@[simp] theorem pushD_pc (v : Word) : (pushD v s).pc = s.pc := rfl

@[simp] theorem pushD_dsp (v : Word) : (pushD v s).dsp = s.dsp - 4#32 := rfl

@[simp] theorem pushD_rsp (v : Word) : (pushD v s).rsp = s.rsp := rfl

@[simp] theorem pushD_cycles (v : Word) : (pushD v s).cycles = s.cycles := rfl

@[simp] theorem pushD_mem (v : Word) : (pushD v s).mem = s.mem.putWord s.cfg.byteOrder (wordBase (s.dsp - 4#32)) v := rfl

@[simp] theorem pushD_halted (v : Word) : (pushD v s).halted = s.halted := rfl

@[simp] theorem pushD_haltCause (v : Word) : (pushD v s).haltCause = s.haltCause := rfl

@[simp] theorem pushD_haltInfo (v : Word) : (pushD v s).haltInfo = s.haltInfo := rfl

@[simp] theorem pushD_cfg (v : Word) : (pushD v s).cfg = s.cfg := rfl

@[simp] theorem pushD_signal (v : Word) : (pushD v s).signal = s.signal := rfl

@[simp] theorem pushD_bridgeCalls (v : Word) : (pushD v s).bridgeCalls = s.bridgeCalls := rfl

@[simp] theorem pushD_keyAnswers (v : Word) : (pushD v s).keyAnswers = s.keyAnswers := rfl

@[simp] theorem pushD_draws (v : Word) : (pushD v s).draws = s.draws := rfl

/-! ## dropD -/

@[simp] theorem dropD_pc : (dropD s).pc = s.pc := rfl

@[simp] theorem dropD_dsp : (dropD s).dsp = s.dsp + 4#32 := rfl

@[simp] theorem dropD_rsp : (dropD s).rsp = s.rsp := rfl

@[simp] theorem dropD_cycles : (dropD s).cycles = s.cycles := rfl

@[simp] theorem dropD_mem : (dropD s).mem = s.mem := rfl

@[simp] theorem dropD_halted : (dropD s).halted = s.halted := rfl

@[simp] theorem dropD_haltCause : (dropD s).haltCause = s.haltCause := rfl

@[simp] theorem dropD_haltInfo : (dropD s).haltInfo = s.haltInfo := rfl

@[simp] theorem dropD_cfg : (dropD s).cfg = s.cfg := rfl

@[simp] theorem dropD_signal : (dropD s).signal = s.signal := rfl

@[simp] theorem dropD_bridgeCalls : (dropD s).bridgeCalls = s.bridgeCalls := rfl

@[simp] theorem dropD_keyAnswers : (dropD s).keyAnswers = s.keyAnswers := rfl

@[simp] theorem dropD_draws : (dropD s).draws = s.draws := rfl

/-! ## pushR -/

@[simp] theorem pushR_pc (v : Word) : (pushR v s).pc = s.pc := rfl

@[simp] theorem pushR_dsp (v : Word) : (pushR v s).dsp = s.dsp := rfl

@[simp] theorem pushR_rsp (v : Word) : (pushR v s).rsp = s.rsp - 4#32 := rfl

@[simp] theorem pushR_cycles (v : Word) : (pushR v s).cycles = s.cycles := rfl

@[simp] theorem pushR_mem (v : Word) : (pushR v s).mem = s.mem.putWord s.cfg.byteOrder (wordBase (s.rsp - 4#32)) v := rfl

@[simp] theorem pushR_halted (v : Word) : (pushR v s).halted = s.halted := rfl

@[simp] theorem pushR_haltCause (v : Word) : (pushR v s).haltCause = s.haltCause := rfl

@[simp] theorem pushR_haltInfo (v : Word) : (pushR v s).haltInfo = s.haltInfo := rfl

@[simp] theorem pushR_cfg (v : Word) : (pushR v s).cfg = s.cfg := rfl

@[simp] theorem pushR_signal (v : Word) : (pushR v s).signal = s.signal := rfl

@[simp] theorem pushR_bridgeCalls (v : Word) : (pushR v s).bridgeCalls = s.bridgeCalls := rfl

@[simp] theorem pushR_keyAnswers (v : Word) : (pushR v s).keyAnswers = s.keyAnswers := rfl

@[simp] theorem pushR_draws (v : Word) : (pushR v s).draws = s.draws := rfl

/-! ## dropR -/

@[simp] theorem dropR_pc : (dropR s).pc = s.pc := rfl

@[simp] theorem dropR_dsp : (dropR s).dsp = s.dsp := rfl

@[simp] theorem dropR_rsp : (dropR s).rsp = s.rsp + 4#32 := rfl

@[simp] theorem dropR_cycles : (dropR s).cycles = s.cycles := rfl

@[simp] theorem dropR_mem : (dropR s).mem = s.mem := rfl

@[simp] theorem dropR_halted : (dropR s).halted = s.halted := rfl

@[simp] theorem dropR_haltCause : (dropR s).haltCause = s.haltCause := rfl

@[simp] theorem dropR_haltInfo : (dropR s).haltInfo = s.haltInfo := rfl

@[simp] theorem dropR_cfg : (dropR s).cfg = s.cfg := rfl

@[simp] theorem dropR_signal : (dropR s).signal = s.signal := rfl

@[simp] theorem dropR_bridgeCalls : (dropR s).bridgeCalls = s.bridgeCalls := rfl

@[simp] theorem dropR_keyAnswers : (dropR s).keyAnswers = s.keyAnswers := rfl

@[simp] theorem dropR_draws : (dropR s).draws = s.draws := rfl

/-! ## callBridge -/

@[simp] theorem callBridge_pc (c : BridgeCall) : (callBridge c s).pc = s.pc := rfl

@[simp] theorem callBridge_dsp (c : BridgeCall) : (callBridge c s).dsp = s.dsp := rfl

@[simp] theorem callBridge_rsp (c : BridgeCall) : (callBridge c s).rsp = s.rsp := rfl

@[simp] theorem callBridge_cycles (c : BridgeCall) : (callBridge c s).cycles = s.cycles := rfl

@[simp] theorem callBridge_mem (c : BridgeCall) : (callBridge c s).mem = s.mem := rfl

@[simp] theorem callBridge_halted (c : BridgeCall) : (callBridge c s).halted = s.halted := rfl

@[simp] theorem callBridge_haltCause (c : BridgeCall) : (callBridge c s).haltCause = s.haltCause := rfl

@[simp] theorem callBridge_haltInfo (c : BridgeCall) : (callBridge c s).haltInfo = s.haltInfo := rfl

@[simp] theorem callBridge_cfg (c : BridgeCall) : (callBridge c s).cfg = s.cfg := rfl

@[simp] theorem callBridge_signal (c : BridgeCall) : (callBridge c s).signal = s.signal := rfl

@[simp] theorem callBridge_bridgeCalls (c : BridgeCall) : (callBridge c s).bridgeCalls = s.bridgeCalls ++ [c] := rfl

@[simp] theorem callBridge_keyAnswers (c : BridgeCall) : (callBridge c s).keyAnswers = s.keyAnswers := rfl

@[simp] theorem callBridge_draws (c : BridgeCall) : (callBridge c s).draws = s.draws := rfl

/-! ## takeKey -/

@[simp] theorem takeKey_pc : (takeKey s).pc = s.pc := by
  unfold takeKey; split <;> simp_all

@[simp] theorem takeKey_dsp : (takeKey s).dsp = s.dsp := by
  unfold takeKey; split <;> simp_all

@[simp] theorem takeKey_rsp : (takeKey s).rsp = s.rsp := by
  unfold takeKey; split <;> simp_all

@[simp] theorem takeKey_cycles : (takeKey s).cycles = s.cycles := by
  unfold takeKey; split <;> simp_all

@[simp] theorem takeKey_mem : (takeKey s).mem = s.mem := by
  unfold takeKey; split <;> simp_all

@[simp] theorem takeKey_halted : (takeKey s).halted = s.halted := by
  unfold takeKey; split <;> simp_all

@[simp] theorem takeKey_haltCause : (takeKey s).haltCause = s.haltCause := by
  unfold takeKey; split <;> simp_all

@[simp] theorem takeKey_haltInfo : (takeKey s).haltInfo = s.haltInfo := by
  unfold takeKey; split <;> simp_all

@[simp] theorem takeKey_cfg : (takeKey s).cfg = s.cfg := by
  unfold takeKey; split <;> simp_all

@[simp] theorem takeKey_signal : (takeKey s).signal = s.signal := by
  unfold takeKey; split <;> simp_all

@[simp] theorem takeKey_bridgeCalls : (takeKey s).bridgeCalls = s.bridgeCalls := by
  unfold takeKey; split <;> simp_all

@[simp] theorem takeKey_keyAnswers : (takeKey s).keyAnswers = s.keyAnswers.tail := by
  unfold takeKey; split <;> simp_all

/-! ## raiseFatal -/

@[simp] theorem raiseFatal_pc (c : HaltCause) (v : Word) (cells : List Word) : (raiseFatal c v cells s).pc = Config.freeWord s.draws &&& pcMask := rfl

@[simp] theorem raiseFatal_dsp (c : HaltCause) (v : Word) (cells : List Word) : (raiseFatal c v cells s).dsp = Config.freeWord (s.draws + 1) := rfl

@[simp] theorem raiseFatal_rsp (c : HaltCause) (v : Word) (cells : List Word) : (raiseFatal c v cells s).rsp = Config.freeWord (s.draws + 2) := rfl

@[simp] theorem raiseFatal_cycles (c : HaltCause) (v : Word) (cells : List Word) : (raiseFatal c v cells s).cycles = Config.freeWord (s.draws + 3) := rfl

@[simp] theorem raiseFatal_mem (c : HaltCause) (v : Word) (cells : List Word) : (raiseFatal c v cells s).mem = forgetCells s.cfg.byteOrder s.mem cells (s.draws + 5) := rfl

@[simp] theorem raiseFatal_halted (c : HaltCause) (v : Word) (cells : List Word) : (raiseFatal c v cells s).halted = true := rfl

@[simp] theorem raiseFatal_haltCause (c : HaltCause) (v : Word) (cells : List Word) : (raiseFatal c v cells s).haltCause = c := rfl

@[simp] theorem raiseFatal_haltInfo (c : HaltCause) (v : Word) (cells : List Word) : (raiseFatal c v cells s).haltInfo = v := rfl

@[simp] theorem raiseFatal_cfg (c : HaltCause) (v : Word) (cells : List Word) : (raiseFatal c v cells s).cfg = s.cfg := rfl

@[simp] theorem raiseFatal_signal (c : HaltCause) (v : Word) (cells : List Word) : (raiseFatal c v cells s).signal = Config.freeWord (s.draws + 4) := rfl

@[simp] theorem raiseFatal_bridgeCalls (c : HaltCause) (v : Word) (cells : List Word) : (raiseFatal c v cells s).bridgeCalls = s.bridgeCalls := rfl

@[simp] theorem raiseFatal_keyAnswers (c : HaltCause) (v : Word) (cells : List Word) : (raiseFatal c v cells s).keyAnswers = s.keyAnswers := rfl

@[simp] theorem raiseFatal_draws (c : HaltCause) (v : Word) (cells : List Word) : (raiseFatal c v cells s).draws = s.draws + 5 + cells.length := rfl

/-! ## countCycle -/

@[simp] theorem countCycle_pc : (countCycle s).pc = s.pc := by
  unfold countCycle; split <;> rfl

@[simp] theorem countCycle_dsp : (countCycle s).dsp = s.dsp := by
  unfold countCycle; split <;> rfl

@[simp] theorem countCycle_rsp : (countCycle s).rsp = s.rsp := by
  unfold countCycle; split <;> rfl

@[simp] theorem countCycle_mem : (countCycle s).mem = s.mem := by
  unfold countCycle; split <;> rfl

@[simp] theorem countCycle_halted : (countCycle s).halted = s.halted := by
  unfold countCycle; split <;> rfl

@[simp] theorem countCycle_haltCause : (countCycle s).haltCause = s.haltCause := by
  unfold countCycle; split <;> rfl

@[simp] theorem countCycle_haltInfo : (countCycle s).haltInfo = s.haltInfo := by
  unfold countCycle; split <;> rfl

@[simp] theorem countCycle_cfg : (countCycle s).cfg = s.cfg := by
  unfold countCycle; split <;> rfl

@[simp] theorem countCycle_bridgeCalls : (countCycle s).bridgeCalls = s.bridgeCalls := by
  unfold countCycle; split <;> rfl

@[simp] theorem countCycle_keyAnswers : (countCycle s).keyAnswers = s.keyAnswers := by
  unfold countCycle; split <;> rfl

@[simp] theorem countCycle_draws : (countCycle s).draws = s.draws := by
  unfold countCycle; split <;> rfl

/-! ## haltedStep -/

@[simp] theorem haltedStep_pc : (haltedStep s).pc = s.pc := rfl

@[simp] theorem haltedStep_dsp : (haltedStep s).dsp = s.dsp := rfl

@[simp] theorem haltedStep_rsp : (haltedStep s).rsp = s.rsp := rfl

@[simp] theorem haltedStep_cycles : (haltedStep s).cycles = s.cycles := rfl

@[simp] theorem haltedStep_mem : (haltedStep s).mem = s.mem := rfl

@[simp] theorem haltedStep_halted : (haltedStep s).halted = s.halted := rfl

@[simp] theorem haltedStep_haltCause : (haltedStep s).haltCause = s.haltCause := rfl

@[simp] theorem haltedStep_haltInfo : (haltedStep s).haltInfo = s.haltInfo := rfl

@[simp] theorem haltedStep_cfg : (haltedStep s).cfg = s.cfg := rfl

@[simp] theorem haltedStep_signal : (haltedStep s).signal = 0#32 := rfl

@[simp] theorem haltedStep_bridgeCalls : (haltedStep s).bridgeCalls = s.bridgeCalls := rfl

@[simp] theorem haltedStep_keyAnswers : (haltedStep s).keyAnswers = s.keyAnswers := rfl

@[simp] theorem haltedStep_draws : (haltedStep s).draws = s.draws := rfl

end Sys2Proof.Machine
end

