-- ==== Sys2Proof/Laws/Ops.lean ====
section
/-! SUPPORT. What each shared operation does, said once: reads after writes, frames by the byte, the canonical form. -/

namespace Sys2Proof.Machine

/-! ## Word and byte accesses -/

theorem readWord_writeWord_same (s : State) (a b v : Word) (h : s.mem.wf) (hab : wordBase b = wordBase a) :
    readWord (writeWord a v s) b = v := by
  simp only [readWord, writeWord_mem, writeWord_cfg, hab]
  exact wordAt_putWord_same _ v h (wordBase_lt a)

theorem readWord_writeWord_other (s : State) (a b v : Word) (hab : wordBase b ≠ wordBase a) :
    readWord (writeWord a v s) b = readWord s b := by
  simp only [readWord, writeWord_mem, writeWord_cfg]
  exact wordAt_putWord_other _ _ _ v (wordBase_apart hab)

/-- A byte outside the written cell reads as before. -/
theorem readByte_writeWord_other (s : State) (a b v : Word) (hab : wordBase b ≠ wordBase a) :
    readByte (writeWord a v s) b = readByte s b := by
  simp only [readByte, writeWord_mem]
  refine byteAt_putWord_other _ _ v ?_
  have h1 := byteIndex_eq_wordBase_add b
  have h2 := wordBase_apart hab
  omega

theorem readByte_writeByte_same (s : State) (a b : Word) (v : Byte) (h : s.mem.wf)
    (hab : byteIndex b = byteIndex a) : readByte (writeByte a v s) b = v := by
  simp only [readByte, writeByte_mem, hab]
  exact byteAt_putByte_same v h

theorem readByte_writeByte_other (s : State) (a b : Word) (v : Byte) (hab : byteIndex b ≠ byteIndex a) :
    readByte (writeByte a v s) b = readByte s b := by
  simp only [readByte, writeByte_mem]
  exact byteAt_putByte_other _ v hab

/-- R33: a byte read is a lane of the word read of its cell. -/
theorem readByte_eq_lane (s : State) (a : Word) :
    readByte s a = byteOfWord s.cfg.byteOrder (readWord s a) (a.toNat % 4) := by
  rw [readWord, byteOfWord_wordAt _ _ _ _ (Nat.mod_lt _ (by omega)), readByte, byteIndex_eq_wordBase_add]

/-! ## The canonical form -/

theorem writeWord_mem_wf (s : State) (a v : Word) (h : s.mem.wf) : (writeWord a v s).mem.wf :=
  wf_putWord _ v h (wordBase_lt a)

theorem writeByte_mem_wf (s : State) (a : Word) (v : Byte) (h : s.mem.wf) : (writeByte a v s).mem.wf :=
  wf_putByte v h (byteIndex_lt a)

theorem pushD_mem_wf (s : State) (v : Word) (h : s.mem.wf) : (pushD v s).mem.wf :=
  wf_putWord _ v h (wordBase_lt _)

theorem pushR_mem_wf (s : State) (v : Word) (h : s.mem.wf) : (pushR v s).mem.wf :=
  wf_putWord _ v h (wordBase_lt _)

theorem dropD_mem_wf (s : State) (h : s.mem.wf) : (dropD s).mem.wf := h

theorem dropR_mem_wf (s : State) (h : s.mem.wf) : (dropR s).mem.wf := h

theorem raiseFatal_mem_wf (s : State) (c : HaltCause) (v : Word) (cells : List Word) (h : s.mem.wf) :
    (raiseFatal c v cells s).mem.wf := wf_forgetCells _ cells _ h

/-! ## The stacks -/

/-- R37: what a push puts on top is there. -/
theorem topD_pushD (s : State) (v : Word) (h : s.mem.wf) : topD (pushD v s) = v :=
  readWord_writeWord_same { s with dsp := s.dsp - 4#32 } (s.dsp - 4#32) (s.dsp - 4#32) v h rfl

theorem topR_pushR (s : State) (v : Word) (h : s.mem.wf) : topR (pushR v s) = v :=
  readWord_writeWord_same { s with rsp := s.rsp - 4#32 } (s.rsp - 4#32) (s.rsp - 4#32) v h rfl

/-- R38: a push changes no byte outside the new top cell. -/
theorem readByte_pushD_other (s : State) (v b : Word) (h : wordBase b ≠ wordBase (s.dsp - 4#32)) :
    readByte (pushD v s) b = readByte s b :=
  readByte_writeWord_other { s with dsp := s.dsp - 4#32 } _ b v h

theorem readByte_pushR_other (s : State) (v b : Word) (h : wordBase b ≠ wordBase (s.rsp - 4#32)) :
    readByte (pushR v s) b = readByte s b :=
  readByte_writeWord_other { s with rsp := s.rsp - 4#32 } _ b v h

theorem readWord_pushD_other (s : State) (v b : Word) (h : wordBase b ≠ wordBase (s.dsp - 4#32)) :
    readWord (pushD v s) b = readWord s b :=
  readWord_writeWord_other { s with dsp := s.dsp - 4#32 } _ b v h

theorem readWord_pushR_other (s : State) (v b : Word) (h : wordBase b ≠ wordBase (s.rsp - 4#32)) :
    readWord (pushR v s) b = readWord s b :=
  readWord_writeWord_other { s with rsp := s.rsp - 4#32 } _ b v h

/-- R37: a pop does not change memory. -/
@[simp] theorem readByte_dropD (s : State) (b : Word) : readByte (dropD s) b = readByte s b := rfl

@[simp] theorem readWord_dropD (s : State) (b : Word) : readWord (dropD s) b = readWord s b := rfl

@[simp] theorem readByte_dropR (s : State) (b : Word) : readByte (dropR s) b = readByte s b := rfl

@[simp] theorem readWord_dropR (s : State) (b : Word) : readWord (dropR s) b = readWord s b := rfl

@[simp] theorem readByte_writePc (s : State) (a b : Word) : readByte (writePc a s) b = readByte s b := rfl

@[simp] theorem readWord_writePc (s : State) (a b : Word) : readWord (writePc a s) b = readWord s b := rfl

@[simp] theorem readByte_callBridge (s : State) (c : BridgeCall) (b : Word) :
    readByte (callBridge c s) b = readByte s b := rfl

@[simp] theorem readByte_takeKey (s : State) (b : Word) : readByte (takeKey s) b = readByte s b := by
  simp [readByte]

/-- Popping a push restores the pointer. -/
theorem dropD_pushD_dsp (s : State) (v : Word) : (dropD (pushD v s)).dsp = s.dsp := by simp

/-! ## The operand forms -/

/-- R118: all a binary primitive does. -/
theorem binaryOp_eq (f : Word → Word → Word) (s : State) :
    binaryOp f s = { s with
      dsp := s.dsp + 4#32
      mem := s.mem.putWord s.cfg.byteOrder (wordBase (s.dsp + 4#32)) (f (secondD s) (topD s)) } := by
  simp [binaryOp, pushD, writeWord, dropD]

/-- R119: all a unary primitive does. -/
theorem unaryOp_eq (f : Word → Word) (s : State) :
    unaryOp f s = { s with mem := s.mem.putWord s.cfg.byteOrder (wordBase s.dsp) (f (topD s)) } := by
  simp [unaryOp, pushD, writeWord, dropD]

theorem binaryOp_mem_wf (f : Word → Word → Word) (s : State) (h : s.mem.wf) : (binaryOp f s).mem.wf :=
  pushD_mem_wf _ _ h

theorem unaryOp_mem_wf (f : Word → Word) (s : State) (h : s.mem.wf) : (unaryOp f s).mem.wf :=
  pushD_mem_wf _ _ h

/-! ## The fatal condition -/

/-- R153: memory outside the popped cells is as it was. -/
theorem readByte_raiseFatal_other (s : State) (c : HaltCause) (v b : Word) (cells : List Word)
    (h : ∀ a ∈ cells, wordBase b ≠ wordBase a) : readByte (raiseFatal c v cells s) b = readByte s b := by
  refine byteAt_forgetCells _ cells _ _ _ (fun a ha => ?_)
  have h1 := byteIndex_eq_wordBase_add b
  have h2 := wordBase_apart (h a ha)
  omega

theorem readWord_raiseFatal_other (s : State) (c : HaltCause) (v b : Word) (cells : List Word)
    (h : ∀ a ∈ cells, wordBase b ≠ wordBase a) : readWord (raiseFatal c v cells s) b = readWord s b := by
  have lane : ∀ k < 4, (raiseFatal c v cells s).mem.byteAt (wordBase b + k) = s.mem.byteAt (wordBase b + k) := by
    intro k hk
    refine byteAt_forgetCells _ cells _ _ _ (fun a ha => ?_)
    have h2 := wordBase_apart (h a ha)
    omega
  have h0 := lane 0 (by omega)
  rw [Nat.add_zero] at h0
  simp only [readWord, Memory.wordAt, h0, lane 1 (by omega), lane 2 (by omega), lane 3 (by omega)]
  rfl

/-! ## The step's own parts -/

theorem advancePc_pcInRange (s : State) : (advancePc s).pc &&& pcMask = (advancePc s).pc := by simp

/-- R70: the two ways of counting a completed instruction. -/
theorem countCycle_cases (s : State) :
    (s.cfg.cyclesPerFrame.toNat ≤ (s.cycles + 1#32).toNat ∧
      countCycle s = { s with cycles := s.cycles + 1#32 - s.cfg.cyclesPerFrame, signal := s.cfg.frameRate }) ∨
    ((s.cycles + 1#32).toNat < s.cfg.cyclesPerFrame.toNat ∧
      countCycle s = { s with cycles := s.cycles + 1#32, signal := 0#32 }) := by
  unfold countCycle
  split
  · exact .inl ⟨‹_›, rfl⟩
  · exact .inr ⟨by omega, rfl⟩

end Sys2Proof.Machine
end

