-- ==== Sys2Proof/Laws/Step.lean ====
section
/-! SUPPORT. What a step can do, said once, and the driver's loop one turn at a time. -/

namespace Sys2Proof.Machine

/-- R70, R154: the three ways a step answers a next state. -/
theorem step_next_cases {s t : State} (h : step s = .next t) :
    (s.halted = true ∧ t = haltedStep s) ∨
    (s.halted = false ∧ ∃ r, decodeWord s.cfg.primCodes (fetchWord s) = .error r ∧ t = raiseReject r (advancePc s)) ∨
    (s.halted = false ∧ ∃ i u, decodeWord s.cfg.primCodes (fetchWord s) = .ok i ∧ exec i (advancePc s) = .next u ∧
      t = finishStep u) := by
  unfold step at h
  split at h
  · exact .inl ⟨‹_›, by cases h; rfl⟩
  · rename_i hh
    have hf : s.halted = false := by simpa using hh
    split at h
    · exact .inr (.inl ⟨hf, _, ‹_›, by cases h; rfl⟩)
    · split at h
      · exact .inr (.inr ⟨hf, _, _, ‹_›, ‹_›, by cases h; rfl⟩)
      · cases h
      · cases h

/-- A step of a halted core. -/
theorem step_of_halted {s : State} (h : s.halted = true) : step s = .next (haltedStep s) := by
  simp [step, h]

/-- A step that fetches a word the decoder rejects. -/
theorem step_of_reject {s : State} {r : Reject} (h : s.halted = false)
    (hd : decodeWord s.cfg.primCodes (fetchWord s) = .error r) : step s = .next (raiseReject r (advancePc s)) := by
  simp [step, h, hd]

/-- A step that runs an instruction. -/
theorem step_of_decoded {s u : State} {i : Instr} (h : s.halted = false)
    (hd : decodeWord s.cfg.primCodes (fetchWord s) = .ok i) (he : exec i (advancePc s) = .next u) :
    step s = .next (finishStep u) := by
  simp [step, h, hd, he]

@[simp] theorem finishStep_of_halted {s : State} (h : s.halted = true) : finishStep s = s := by
  simp [finishStep, h]

@[simp] theorem finishStep_of_running {s : State} (h : s.halted = false) : finishStep s = countCycle s := by
  simp [finishStep, h]

/-- The driver at a halted core (R161). -/
theorem executeWithin_of_halted {s : State} (h : s.halted = true) (bps : Breakpoints) (n : Nat) :
    executeWithin bps n s = some (.halted, s) := by
  cases n <;> simp [executeWithin, h]

/-- One turn of the driver's loop (R161). -/
theorem executeWithin_succ {s t : State} (h : s.halted = false) (hs : step s = .next t) (bps : Breakpoints) (n : Nat) :
    executeWithin bps (n + 1) s =
      if t.halted then some (.halted, t)
      else if t.signal ≠ 0#32 then some (.frame t.signal, t)
      else if bps.hit t.pc then some (.breakpoint, t)
      else executeWithin bps n t := by
  simp only [executeWithin, h, hs]
  rfl

/-- More fuel changes nothing once the driver has returned. -/
theorem executeWithin_mono {bps : Breakpoints} {n : Nat} {s : State} {r : ExecuteResult × State}
    (h : executeWithin bps n s = some r) (m : Nat) (hm : n ≤ m) : executeWithin bps m s = some r := by
  induction n generalizing s m with
  | zero =>
    unfold executeWithin at h
    split at h
    · rename_i hh
      rw [← h]; exact executeWithin_of_halted hh bps m
    · cases h
  | succ n ih =>
    obtain ⟨m, rfl⟩ : ∃ m', m = m' + 1 := ⟨m - 1, by omega⟩
    by_cases hh : s.halted = true
    · rw [executeWithin_of_halted hh] at h ⊢; exact h
    · simp only [Bool.not_eq_true] at hh
      simp only [executeWithin, hh] at h ⊢
      revert h
      cases step s with
      | next t =>
        simp only [Bool.false_eq_true, if_false]
        intro h
        split at h
        · simp_all
        · split at h
          · simp_all
          · split at h
            · simp_all
            · rename_i h1 h2 h3
              simp only [h1, h2, h3, if_false]
              exact ih h m (by omega)
      | fault f => intro h; exact h
      | refused f => intro h; exact h

end Sys2Proof.Machine
end

