-- ==== Sys2Proof/Laws/Exec.lean ====
section
/-! SUPPORT. What each meaning can do, said once: the cases of the meanings that branch, the whole effect of the shuffles, and what every
instruction keeps. -/

namespace Sys2Proof.Machine

/-! ## Neighbouring cells -/

theorem add_four_four (a : Word) : a + 4#32 + 4#32 = a + 8#32 := by rw [BitVec.add_assoc]; rfl

theorem wordBase_add_8_ne (a : Word) : wordBase (a + 8#32) ≠ wordBase a := by
  rw [← add_four_four]; exact wordBase_add_eight_ne a

theorem wordBase_add_8_ne_add_4 (a : Word) : wordBase (a + 8#32) ≠ wordBase (a + 4#32) := by
  rw [← add_four_four]; exact wordBase_add_four_ne _

/-- The word at a cell after a write to another cell. -/
theorem wordAt_putWord_cell_other (o : ByteOrder) (m : Memory) (c a v : Word) (h : wordBase a ≠ wordBase c) :
    (m.putWord o (wordBase c) v).wordAt o (wordBase a) = m.wordAt o (wordBase a) :=
  wordAt_putWord_other _ _ _ v (wordBase_apart h)

/-- The word at a cell after a write to it. -/
theorem wordAt_putWord_cell_same (o : ByteOrder) {m : Memory} (h : m.wf) (c v : Word) :
    (m.putWord o (wordBase c) v).wordAt o (wordBase c) = v :=
  wordAt_putWord_same _ v h (wordBase_lt c)

/-- A byte outside a written cell. -/
theorem byteAt_putWord_cell_other (o : ByteOrder) (m : Memory) (c a v : Word) (h : wordBase a ≠ wordBase c) :
    (m.putWord o (wordBase c) v).byteAt (byteIndex a) = m.byteAt (byteIndex a) := by
  refine byteAt_putWord_other _ _ v ?_
  have h1 := byteIndex_eq_wordBase_add a
  have h2 := wordBase_apart h
  omega

theorem wf_putWord_cell (o : ByteOrder) {m : Memory} (h : m.wf) (c v : Word) : (m.putWord o (wordBase c) v).wf :=
  wf_putWord _ v h (wordBase_lt c)

/-- Writing back the word a cell holds changes nothing. -/
theorem putWord_cell_same (o : ByteOrder) {m : Memory} (h : m.wf) (c : Word) :
    m.putWord o (wordBase c) (m.wordAt o (wordBase c)) = m := putWord_wordAt o h (wordBase_lt c)

/-! ## The meanings that branch -/

theorem exec_fetch_cases {s t : State} (h : exec .fetch s = .next t) :
    (misaligned (topD s) = true ∧ t = raiseFatal .misalignedWordAccess (topD s) [s.dsp] s) ∨
    (misaligned (topD s) = false ∧ t = pushD (readWord s (topD s)) (dropD s)) := by
  change (if misaligned (topD s) = true then _ else _) = _ at h
  split at h <;> cases h <;> simp_all

theorem exec_store_cases {s t : State} (h : exec .store s = .next t) :
    (misaligned (topD s) = true ∧ t = raiseFatal .misalignedWordAccess (topD s) [s.dsp, s.dsp + 4#32] s) ∨
    (misaligned (topD s) = false ∧ t = writeWord (topD s) (secondD s) (dropD (dropD s))) := by
  change (if misaligned (topD s) = true then _ else _) = _ at h
  split at h <;> cases h <;> simp_all

theorem exec_plusStore_cases {s t : State} (h : exec .plusStore s = .next t) :
    (misaligned (topD s) = true ∧ t = raiseFatal .misalignedWordAccess (topD s) [s.dsp, s.dsp + 4#32] s) ∨
    (misaligned (topD s) = false ∧
      t = writeWord (topD s) (readWord s (topD s) + secondD s) (dropD (dropD s))) := by
  change (if misaligned (topD s) = true then _ else _) = _ at h
  split at h <;> cases h <;> simp_all

theorem exec_bz_cases {off : BitVec 28} {s t : State} (h : exec (.bz off) s = .next t) :
    (topD s = 0#32 ∧ t = writePc (relativeTarget s.pc off) (dropD s)) ∨ (topD s ≠ 0#32 ∧ t = dropD s) := by
  change Host.Outcome.next (if isZero (topD s) = true then _ else _) = _ at h
  split at h <;> cases h <;> simp_all [isZero]

theorem exec_skipIfZero_cases {s t : State} (h : exec .skipIfZero s = .next t) :
    (topD s = 0#32 ∧ t = writePc (s.pc + 4#32) (dropD s)) ∨ (topD s ≠ 0#32 ∧ t = dropD s) := by
  change Host.Outcome.next (if isZero (topD s) = true then _ else _) = _ at h
  split at h <;> cases h <;> simp_all [isZero]

theorem exec_hwio_cases {s t : State} (h : exec .hwio s = .next t) :
    (topD s = 0#32 ∧ t = hwioGetKey (dropD s)) ∨
    (topD s = 1#32 ∧ t = callBridge (.setScreenWriteAddress (secondD s)) (dropD (dropD s))) ∨
    (topD s = 2#32 ∧ t = callBridge (.writeScreenMemory (secondD s)) (dropD (dropD s))) ∨
    (topD s ≠ 0#32 ∧ topD s ≠ 1#32 ∧ topD s ≠ 2#32 ∧ t = raiseFatal .reservedHwioCommand (topD s) [s.dsp] s) := by
  change (if topD s = 0#32 then _ else if topD s = 1#32 then _ else if topD s = 2#32 then _ else _) = _ at h
  split at h
  · cases h; simp_all
  · split at h
    · cases h; simp_all
    · split at h <;> cases h <;> simp_all

/-! ## The shuffles, whole -/

theorem exec_dup_eq {s : State} (h : s.mem.wf) :
    exec .dup s = .next (writeWord (s.dsp - 4#32) (readWord s s.dsp) { s with dsp := s.dsp - 4#32 }) := by
  have hm := putWord_cell_same s.cfg.byteOrder h s.dsp
  simp [exec, execDup, pushD, writeWord, topD, dropD, readWord, hm]

theorem exec_over_eq {s : State} (h : s.mem.wf) :
    exec .overCell s = .next (writeWord (s.dsp - 4#32) (readWord s (s.dsp + 4#32)) { s with dsp := s.dsp - 4#32 }) := by
  have h0 := putWord_cell_same s.cfg.byteOrder h s.dsp
  have h1 := putWord_cell_same s.cfg.byteOrder h (s.dsp + 4#32)
  simp [exec, execOver, pushD, writeWord, topD, secondD, dropD, readWord, h0, h1]

theorem exec_swap_eq (s : State) :
    exec .swap s = .next { s with
      mem := (s.mem.putWord s.cfg.byteOrder (wordBase (s.dsp + 4#32)) (readWord s s.dsp)).putWord s.cfg.byteOrder
        (wordBase s.dsp) (readWord s (s.dsp + 4#32)) } := by
  simp [exec, execSwap, pushD, writeWord, topD, secondD, dropD, readWord]

theorem exec_rot_eq (s : State) :
    exec .rot s = .next { s with
      mem := ((s.mem.putWord s.cfg.byteOrder (wordBase (s.dsp + 8#32)) (readWord s (s.dsp + 4#32))).putWord
        s.cfg.byteOrder (wordBase (s.dsp + 4#32)) (readWord s s.dsp)).putWord s.cfg.byteOrder
        (wordBase s.dsp) (readWord s (s.dsp + 8#32)) } := by
  have e1 : s.dsp + 8#32 - 4#32 = s.dsp + 4#32 := by rw [← add_four_four]; exact add_sub_four _
  have e2 : s.dsp + 4#32 - 4#32 = s.dsp := add_sub_four _
  simp [exec, execRot, pushD, writeWord, topD, secondD, thirdD, dropD, readWord, add_four_four, e1, e2]

/-! ## What every instruction keeps -/

/-- What an instruction that raises no fatal condition keeps: the counter, what the last step returned, the halt record, the configuration,
the canonical form of memory and the alignment of `pc`. -/
structure Keeps (s t : State) : Prop where
  cycles : t.cycles = s.cycles
  signal : t.signal = s.signal
  halted : t.halted = s.halted
  haltCause : t.haltCause = s.haltCause
  haltInfo : t.haltInfo = s.haltInfo
  cfg : t.cfg = s.cfg
  memWf : s.mem.wf → t.mem.wf
  pcInRange : s.pc &&& pcMask = s.pc → t.pc &&& pcMask = t.pc

theorem Keeps.refl (s : State) : Keeps s s := ⟨rfl, rfl, rfl, rfl, rfl, rfl, id, id⟩

theorem Keeps.trans {s t u : State} (h : Keeps s t) (k : Keeps t u) : Keeps s u :=
  ⟨k.cycles.trans h.cycles, k.signal.trans h.signal, k.halted.trans h.halted, k.haltCause.trans h.haltCause,
    k.haltInfo.trans h.haltInfo, k.cfg.trans h.cfg, fun w => k.memWf (h.memWf w), fun p => k.pcInRange (h.pcInRange p)⟩

theorem keeps_dropD (s : State) : Keeps s (dropD s) := ⟨rfl, rfl, rfl, rfl, rfl, rfl, id, id⟩

theorem keeps_dropR (s : State) : Keeps s (dropR s) := ⟨rfl, rfl, rfl, rfl, rfl, rfl, id, id⟩

theorem keeps_pushD (s : State) (v : Word) : Keeps s (pushD v s) :=
  ⟨rfl, rfl, rfl, rfl, rfl, rfl, fun h => pushD_mem_wf s v h, id⟩

theorem keeps_pushR (s : State) (v : Word) : Keeps s (pushR v s) :=
  ⟨rfl, rfl, rfl, rfl, rfl, rfl, fun h => pushR_mem_wf s v h, id⟩

theorem keeps_writeWord (s : State) (a v : Word) : Keeps s (writeWord a v s) :=
  ⟨rfl, rfl, rfl, rfl, rfl, rfl, fun h => writeWord_mem_wf s a v h, id⟩

theorem keeps_writeByte (s : State) (a : Word) (v : Byte) : Keeps s (writeByte a v s) :=
  ⟨rfl, rfl, rfl, rfl, rfl, rfl, fun h => writeByte_mem_wf s a v h, id⟩

theorem keeps_writePc (s : State) (a : Word) : Keeps s (writePc a s) :=
  ⟨rfl, rfl, rfl, rfl, rfl, rfl, id, fun _ => by simp⟩

theorem keeps_callBridge (s : State) (c : BridgeCall) : Keeps s (callBridge c s) :=
  ⟨rfl, rfl, rfl, rfl, rfl, rfl, id, id⟩

theorem keeps_takeKey (s : State) : Keeps s (takeKey s) :=
  ⟨by simp, by simp, by simp, by simp, by simp, by simp, by simp, by simp⟩

theorem keeps_binaryOp (s : State) (f : Word → Word → Word) : Keeps s (binaryOp f s) :=
  ((keeps_dropD s).trans (keeps_dropD _)).trans (keeps_pushD _ _)

theorem keeps_unaryOp (s : State) (f : Word → Word) : Keeps s (unaryOp f s) :=
  (keeps_dropD s).trans (keeps_pushD _ _)

theorem keeps_hwioGetKey (s : State) : Keeps s (hwioGetKey s) :=
  ((keeps_callBridge s _).trans (keeps_takeKey _)).trans (keeps_pushD _ _)

/-- Every instruction ends in one of two ways: it raises one of the two fatal conditions a meaning can raise, or it keeps `Keeps`. -/
theorem exec_cases {i : Instr} {s t : State} (h : exec i s = .next t) :
    (∃ cells, t = raiseFatal .misalignedWordAccess (topD s) cells s ∧ misaligned (topD s) = true ∧
      (i = .fetch ∨ i = .store ∨ i = .plusStore)) ∨
    (t = raiseFatal .reservedHwioCommand (topD s) [s.dsp] s ∧ i = .hwio ∧
      topD s ≠ 0#32 ∧ topD s ≠ 1#32 ∧ topD s ≠ 2#32) ∨
    (Keeps s t ∧ ((i = .fetch ∨ i = .store ∨ i = .plusStore) → misaligned (topD s) = false) ∧
      (i = .hwio → topD s = 0#32 ∨ topD s = 1#32 ∨ topD s = 2#32)) := by
  have two : Keeps s (dropD (dropD s)) := (keeps_dropD s).trans (keeps_dropD _)
  cases i
  case fetch =>
    rcases exec_fetch_cases h with ⟨hm, rfl⟩ | ⟨hm, rfl⟩
    · exact .inl ⟨_, rfl, hm, by simp⟩
    · exact .inr (.inr ⟨(keeps_dropD s).trans (keeps_pushD _ _), by simp [hm], by simp⟩)
  case store =>
    rcases exec_store_cases h with ⟨hm, rfl⟩ | ⟨hm, rfl⟩
    · exact .inl ⟨_, rfl, hm, by simp⟩
    · exact .inr (.inr ⟨two.trans (keeps_writeWord _ _ _), by simp [hm], by simp⟩)
  case plusStore =>
    rcases exec_plusStore_cases h with ⟨hm, rfl⟩ | ⟨hm, rfl⟩
    · exact .inl ⟨_, rfl, hm, by simp⟩
    · exact .inr (.inr ⟨two.trans (keeps_writeWord _ _ _), by simp [hm], by simp⟩)
  case hwio =>
    rcases exec_hwio_cases h with ⟨h0, rfl⟩ | ⟨h1, rfl⟩ | ⟨h2, rfl⟩ | ⟨h0, h1, h2, rfl⟩
    · exact .inr (.inr ⟨(keeps_dropD s).trans (keeps_hwioGetKey _), by simp, by simp [h0]⟩)
    · exact .inr (.inr ⟨two.trans (keeps_callBridge _ _), by simp, by simp [h1]⟩)
    · exact .inr (.inr ⟨two.trans (keeps_callBridge _ _), by simp, by simp [h2]⟩)
    · exact .inr (.inl ⟨rfl, rfl, h0, h1, h2⟩)
  all_goals refine .inr (.inr ⟨?_, by simp, by simp⟩)
  case bz =>
    rcases exec_bz_cases h with ⟨_, rfl⟩ | ⟨_, rfl⟩
    · exact (keeps_dropD s).trans (keeps_writePc _ _)
    · exact keeps_dropD s
  case skipIfZero =>
    rcases exec_skipIfZero_cases h with ⟨_, rfl⟩ | ⟨_, rfl⟩
    · exact (keeps_dropD s).trans (keeps_writePc _ _)
    · exact keeps_dropD s
  case lit => cases h; exact keeps_pushD _ _
  case call => cases h; exact (keeps_pushR _ _).trans (keeps_writePc _ _)
  case bra => cases h; exact keeps_writePc _ _
  case cFetch => cases h; exact (keeps_dropD s).trans (keeps_pushD _ _)
  case cStore => cases h; exact two.trans (keeps_writeByte _ _ _)
  case dup => cases h; exact ((keeps_dropD s).trans (keeps_pushD _ _)).trans (keeps_pushD _ _)
  case swap => cases h; exact (two.trans (keeps_pushD _ _)).trans (keeps_pushD _ _)
  case rot =>
    cases h
    exact (((two.trans (keeps_dropD _)).trans (keeps_pushD _ _)).trans (keeps_pushD _ _)).trans (keeps_pushD _ _)
  case drop => cases h; exact keeps_dropD s
  case semi => cases h; exact (keeps_dropR s).trans (keeps_writePc _ _)
  case toR => cases h; exact (keeps_dropD s).trans (keeps_pushR _ _)
  case fromR => cases h; exact (keeps_dropR s).trans (keeps_pushD _ _)
  case plus | minus | times | divide | bitAnd | bitOr | bitXor => cases h; exact keeps_binaryOp s _
  case bitNot | zeroEqual | zeroGreater | zeroLess | negate | onePlus | oneMinus | twoStar | twoSlash =>
    cases h; exact keeps_unaryOp s _
  cases h; exact ((two.trans (keeps_pushD _ _)).trans (keeps_pushD _ _)).trans (keeps_pushD _ _)

end Sys2Proof.Machine
end

