-- ==== Sys2Proof/Laws/PerInstr.lean ====
section
/-! SUPPORT. A law stated once for every instruction as syntax: its canonical word under the default codes agrees with its row of
spec/opcode_table.json (the row's fixed bits), and the instruction is well formed under those codes. -/

namespace Sys2Proof.Laws.MatchesRow

/-- The mask of the instruction's row: the bits the row fixes (bits 27:8 of a primitive are ignored by the decoder and not among them). -/
def rowMask (i : Instr) : Word :=
  match i with
  | .lit _ => 0x80000000#32
  | .call _ => 0xF0000000#32
  | .bra _ => 0xF0000000#32
  | .bz _ => 0xF0000000#32
  | .fetch => 0xF00000FF#32
  | .store => 0xF00000FF#32
  | .cFetch => 0xF00000FF#32
  | .cStore => 0xF00000FF#32
  | .plusStore => 0xF00000FF#32
  | .plus => 0xF00000FF#32
  | .minus => 0xF00000FF#32
  | .times => 0xF00000FF#32
  | .divide => 0xF00000FF#32
  | .bitAnd => 0xF00000FF#32
  | .bitOr => 0xF00000FF#32
  | .bitXor => 0xF00000FF#32
  | .bitNot => 0xF00000FF#32
  | .zeroEqual => 0xF00000FF#32
  | .zeroGreater => 0xF00000FF#32
  | .zeroLess => 0xF00000FF#32
  | .negate => 0xF00000FF#32
  | .onePlus => 0xF00000FF#32
  | .oneMinus => 0xF00000FF#32
  | .twoStar => 0xF00000FF#32
  | .twoSlash => 0xF00000FF#32
  | .dup => 0xF00000FF#32
  | .overCell => 0xF00000FF#32
  | .swap => 0xF00000FF#32
  | .rot => 0xF00000FF#32
  | .drop => 0xF00000FF#32
  | .semi => 0xF00000FF#32
  | .toR => 0xF00000FF#32
  | .fromR => 0xF00000FF#32
  | .skipIfZero => 0xF00000FF#32
  | .hwio => 0xF00000FF#32

/-- The value of those bits in the instruction's row. -/
def rowMatch (i : Instr) : Word :=
  match i with
  | .lit _ => 0x00000000#32
  | .call _ => 0x80000000#32
  | .bra _ => 0x90000000#32
  | .bz _ => 0xA0000000#32
  | .fetch => 0xF0000000#32
  | .store => 0xF0000001#32
  | .cFetch => 0xF0000002#32
  | .cStore => 0xF0000003#32
  | .plusStore => 0xF0000004#32
  | .plus => 0xF0000005#32
  | .minus => 0xF0000006#32
  | .times => 0xF0000007#32
  | .divide => 0xF0000008#32
  | .bitAnd => 0xF0000009#32
  | .bitOr => 0xF000000A#32
  | .bitXor => 0xF000000B#32
  | .bitNot => 0xF000000C#32
  | .zeroEqual => 0xF000000D#32
  | .zeroGreater => 0xF000000E#32
  | .zeroLess => 0xF000000F#32
  | .negate => 0xF0000010#32
  | .onePlus => 0xF0000011#32
  | .oneMinus => 0xF0000012#32
  | .twoStar => 0xF0000013#32
  | .twoSlash => 0xF0000014#32
  | .dup => 0xF0000015#32
  | .overCell => 0xF0000016#32
  | .swap => 0xF0000017#32
  | .rot => 0xF0000018#32
  | .drop => 0xF0000019#32
  | .semi => 0xF000001A#32
  | .toR => 0xF000001B#32
  | .fromR => 0xF000001C#32
  | .skipIfZero => 0xF000001D#32
  | .hwio => 0xF000001E#32

/-- The instruction's canonical word has its row's fixed bits, and the instruction is well formed under the default codes. -/
def Statement (i : Instr) : Prop :=
  encode defaultPrimCodes i &&& rowMask i = rowMatch i ∧ i.wf defaultPrimCodes = true

theorem classWord_bits (c : BitVec 4) (off : BitVec 28) : (c ++ off) &&& 0xF0000000#32 = c ++ 0#28 := by
  rw [show 0xF0000000#32 = 15#4 ++ 0#28 from rfl, BitVec.and_append]
  congr 1
  · revert c; decide
  · simp

theorem lit (imm31 : BitVec 31) : Statement (.lit imm31) := by
  refine ⟨?_, rfl⟩
  change ((0#1 ++ imm31 : Word) &&& 0x80000000#32) = 0x00000000#32
  rw [show 0x80000000#32 = 1#1 ++ 0#31 from rfl, BitVec.and_append]
  simp

theorem call (off28 : BitVec 28) : Statement (.call off28) := ⟨classWord_bits _ off28, rfl⟩

theorem bra (off28 : BitVec 28) : Statement (.bra off28) := ⟨classWord_bits _ off28, rfl⟩

theorem bz (off28 : BitVec 28) : Statement (.bz off28) := ⟨classWord_bits _ off28, rfl⟩

theorem fetch : Statement .fetch := by unfold Statement; decide

theorem store : Statement .store := by unfold Statement; decide

theorem cFetch : Statement .cFetch := by unfold Statement; decide

theorem cStore : Statement .cStore := by unfold Statement; decide

theorem plusStore : Statement .plusStore := by unfold Statement; decide

theorem plus : Statement .plus := by unfold Statement; decide

theorem minus : Statement .minus := by unfold Statement; decide

theorem times : Statement .times := by unfold Statement; decide

theorem divide : Statement .divide := by unfold Statement; decide

theorem bitAnd : Statement .bitAnd := by unfold Statement; decide

theorem bitOr : Statement .bitOr := by unfold Statement; decide

theorem bitXor : Statement .bitXor := by unfold Statement; decide

theorem bitNot : Statement .bitNot := by unfold Statement; decide

theorem zeroEqual : Statement .zeroEqual := by unfold Statement; decide

theorem zeroGreater : Statement .zeroGreater := by unfold Statement; decide

theorem zeroLess : Statement .zeroLess := by unfold Statement; decide

theorem negate : Statement .negate := by unfold Statement; decide

theorem onePlus : Statement .onePlus := by unfold Statement; decide

theorem oneMinus : Statement .oneMinus := by unfold Statement; decide

theorem twoStar : Statement .twoStar := by unfold Statement; decide

theorem twoSlash : Statement .twoSlash := by unfold Statement; decide

theorem dup : Statement .dup := by unfold Statement; decide

theorem overCell : Statement .overCell := by unfold Statement; decide

theorem swap : Statement .swap := by unfold Statement; decide

theorem rot : Statement .rot := by unfold Statement; decide

theorem drop : Statement .drop := by unfold Statement; decide

theorem semi : Statement .semi := by unfold Statement; decide

theorem toR : Statement .toR := by unfold Statement; decide

theorem fromR : Statement .fromR := by unfold Statement; decide

theorem skipIfZero : Statement .skipIfZero := by unfold Statement; decide

theorem hwio : Statement .hwio := by unfold Statement; decide

end Sys2Proof.Laws.MatchesRow
end

