-- ==== Sys2Proof/Tests/Slice0.lean ====
section
/-! SUPPORT. Tests: the checks of WellFormed refuse ill-formed terms; words written out from the spec's encodings decode; one step of every
instruction on the vectors of spec/95_test_vectors.md (S1 to S12 and part 2, all under CFG-REF); and for every obligation that has
hypotheses a concrete state that meets them. Expected values come from the spec's tables. -/

namespace Sys2Proof.Tests

open Sys2Proof.Machine Sys2Proof.Claims

/-! ## Small states (95_test_vectors.md, Conventions) -/

/-- An empty data stack, `pc` = 0x100. -/
def base : State := { State.reset with pc := 0x100#32, dsp := 0x000FF000#32, bridgeCalls := [] }

/-- The cells pushed onto an empty data stack, written top first. -/
def stack (cells : List Word) : State := cells.foldr pushD base

/-- The next state of an outcome. -/
def nextOf (o : Host.Outcome State Fault Refusal) : State :=
  match o with
  | .next t => t
  | .fault _ => State.reset
  | .refused _ => State.reset

/-- One step with the word `w` stored at `pc`. -/
def stepWord (w : Word) (s : State) : State := nextOf (step (writeWord s.pc w s))

/-- The top `n` cells of the data stack, top first. -/
def tops (n : Nat) (s : State) : List Word := (List.range n).map fun k => readWord s (s.dsp + BitVec.ofNat 32 (4 * k))

/-- One step of a binary or unary primitive on `cells`: the top two cells and the depth's change in bytes. -/
def alu (w : Word) (cells : List Word) : List Word × Word :=
  (tops 2 (stepWord w (stack cells)), (stepWord w (stack cells)).dsp - (stack cells).dsp)

/-- What a halted state latched. -/
def record (s : State) : Bool × HaltCause × Word := (s.halted, s.haltCause, s.haltInfo)

/-- A legal configuration with other values than CFG-REF: codes in reverse order, big-endian, relocated. -/
def otherConfig : Config :=
  { Config.ref with
    primCodes := defaultPrimCodes.reverse
    byteOrder := .big
    relocBase := 0x00000040#32
    cyclesPerFrame := 2#32 }

/-! ## WellFormed smoke tests: each check refuses an ill-formed term -/

theorem smoke_ref_is_legal : Config.ref.wf = true := by decide

theorem smoke_other_is_legal : otherConfig.wf = true := by decide

theorem smoke_duplicate_code : primCodesWf (0x01#8 :: defaultPrimCodes.tail) = false := by decide

theorem smoke_missing_code : primCodesWf defaultPrimCodes.tail = false := by decide

theorem smoke_misaligned_pointer : Config.wf { Config.ref with rstDsp := 0x000FEFFE#32 } = false := by decide

theorem smoke_misaligned_limit : Config.wf { Config.ref with rsLimit := 0x000FF001#32 } = false := by decide

theorem smoke_window_out_of_order : Config.windowsOrdered { Config.ref with dsLimit := 0x000FF004#32 } = false := by decide

theorem smoke_windows_overlap : Config.windowsDisjoint { Config.ref with rsLimit := 0x000FEFFC#32 } = false := by decide

theorem smoke_zero_budget : Config.budgetInRange { Config.ref with cyclesPerFrame := 0#32 } = false := by decide

theorem smoke_budget_too_large : Config.budgetInRange { Config.ref with cyclesPerFrame := 0x80000000#32 } = false := by
  decide

theorem smoke_zero_frame_rate : Config.wf { Config.ref with frameRate := 0#32 } = false := by decide

theorem smoke_instr_without_code : Instr.wf (defaultPrimCodes.take 30) .hwio = false := by decide

theorem smoke_instr_with_a_code_taken : Instr.wf (0x01#8 :: defaultPrimCodes.tail) .store = false := by decide

/-! ## Decoding: words written out bit by bit from R52 to R58 -/

/-- What the default codes decode a word to. -/
def dec (w : Word) : Except Reject Instr := decodeWord defaultPrimCodes w

/-- R52: 0, then the 31-bit literal. -/
theorem test_decode_literal :
    dec 0x00000000#32 = .ok (.lit 0#31) ∧
    dec 0x0000000A#32 = .ok (.lit 10#31) ∧
    dec 0x7FFFFFFA#32 = .ok (.lit 0x7FFFFFFA#31) ∧
    dec 0x7FFFFFFF#32 = .ok (.lit 0x7FFFFFFF#31) := by decide

/-- R53: class 8, 9, 10, then the 28-bit offset. -/
theorem test_decode_relative :
    dec 0b10000000000000000000000000010000#32 = .ok (.call 0x10#28) ∧
    dec 0b10011111111111111111111111100100#32 = .ok (.bra 0xFFFFFE4#28) ∧
    dec 0b10100000000000000000000000000100#32 = .ok (.bz 4#28) ∧
    dec 0xAFFFFFFF#32 = .ok (.bz 0xFFFFFFF#28) := by decide

/-- R54, R56: class 15 and the code of the table. -/
theorem test_decode_memory :
    dec 0b11110000000000000000000000000000#32 = .ok .fetch ∧
    dec 0b11110000000000000000000000000001#32 = .ok .store ∧
    dec 0b11110000000000000000000000000010#32 = .ok .cFetch ∧
    dec 0b11110000000000000000000000000011#32 = .ok .cStore ∧
    dec 0b11110000000000000000000000000100#32 = .ok .plusStore := by decide

theorem test_decode_arith :
    dec 0b11110000000000000000000000000101#32 = .ok .plus ∧
    dec 0b11110000000000000000000000000110#32 = .ok .minus ∧
    dec 0b11110000000000000000000000000111#32 = .ok .times ∧
    dec 0b11110000000000000000000000001000#32 = .ok .divide ∧
    dec 0b11110000000000000000000000001001#32 = .ok .bitAnd ∧
    dec 0b11110000000000000000000000001010#32 = .ok .bitOr ∧
    dec 0b11110000000000000000000000001011#32 = .ok .bitXor ∧
    dec 0b11110000000000000000000000001100#32 = .ok .bitNot := by decide

theorem test_decode_unary :
    dec 0b11110000000000000000000000001101#32 = .ok .zeroEqual ∧
    dec 0b11110000000000000000000000001110#32 = .ok .zeroGreater ∧
    dec 0b11110000000000000000000000001111#32 = .ok .zeroLess ∧
    dec 0b11110000000000000000000000010000#32 = .ok .negate ∧
    dec 0b11110000000000000000000000010001#32 = .ok .onePlus ∧
    dec 0b11110000000000000000000000010010#32 = .ok .oneMinus ∧
    dec 0b11110000000000000000000000010011#32 = .ok .twoStar ∧
    dec 0b11110000000000000000000000010100#32 = .ok .twoSlash := by decide

theorem test_decode_shuffle :
    dec 0b11110000000000000000000000010101#32 = .ok .dup ∧
    dec 0b11110000000000000000000000010110#32 = .ok .overCell ∧
    dec 0b11110000000000000000000000010111#32 = .ok .swap ∧
    dec 0b11110000000000000000000000011000#32 = .ok .rot ∧
    dec 0b11110000000000000000000000011001#32 = .ok .drop := by decide

theorem test_decode_return_io :
    dec 0b11110000000000000000000000011010#32 = .ok .semi ∧
    dec 0b11110000000000000000000000011011#32 = .ok .toR ∧
    dec 0b11110000000000000000000000011100#32 = .ok .fromR ∧
    dec 0b11110000000000000000000000011101#32 = .ok .skipIfZero ∧
    dec 0b11110000000000000000000000011110#32 = .ok .hwio := by decide

/-- R54, D4: bits 27:8 of a primitive are ignored. -/
theorem test_decode_ignored_bits : dec 0xF0ABCD05#32 = .ok .plus ∧ dec 0xFFFFFF1E#32 = .ok .hwio := by decide

/-- R57, R58. -/
theorem test_decode_reserved :
    dec 0xB0000000#32 = .error (.reservedClass 0xB0000000#32) ∧
    dec 0xE1234567#32 = .error (.reservedClass 0xE1234567#32) ∧
    dec 0xF000001F#32 = .error (.reservedPrimitive 0x1F#8) ∧
    dec 0xF00000FF#32 = .error (.reservedPrimitive 0xFF#8) := by decide

/-- R33, R46, R50. -/
theorem test_decode_bytes :
    decodeBytes defaultPrimCodes .little [0x05#8, 0x00#8, 0x00#8, 0xF0#8, 0xAA#8] = some (.ok .plus, [0xAA#8]) ∧
    decodeBytes defaultPrimCodes .big [0xF0#8, 0x00#8, 0x00#8, 0x05#8] = some (.ok .plus, []) ∧
    decodeBytes defaultPrimCodes .little [0x05#8, 0x00#8, 0x00#8] = none := by decide

/-- R56: another PRIM_CODE. -/
theorem test_decode_other_codes :
    decodeWord otherConfig.primCodes 0xF0000000#32 = .ok .hwio ∧ encode otherConfig.primCodes .fetch = 0xF000001E#32 := by decide

/-- The host's decoding. -/
theorem test_decode_table_word :
    decodeTableWord 32 0xF0000008 = some .divide ∧
    decodeTableWord 32 0x80000010 = some (.call 0x10#28) ∧
    decodeTableWord 32 0xB0000000 = none := by decide

/-- The word withFetchWord places is the first one a step runs. -/
theorem test_step_runs_placed_word :
    (nextOf (step (State.reset.withFetchWord 32 0x00000007))).pc = 4#32 ∧
    tops 2 (nextOf (step (State.reset.withFetchWord 32 0x00000007))) = [7#32, 0#32] ∧
    tops 1 (nextOf (step (State.reset.withFetchWord 32 0xF000000D))) = [0xFFFFFFFF#32] := by decide

/-! ## One step per instruction -/

/-- S1, S11. -/
theorem test_lit_sign_extends :
    tops 1 (stepWord 0x40000005#32 base) = [0xC0000005#32] ∧
    (stepWord 0x40000005#32 base).dsp = 0x000FEFFC#32 ∧
    tops 1 (stepWord 0x3FFFFFFF#32 base) = [0x3FFFFFFF#32] ∧
    tops 1 (stepWord 0x7FFFFFFF#32 base) = [0xFFFFFFFF#32] := by decide

/-- 2.2: the advance wraps. -/
theorem test_lit_at_top_of_memory :
    (stepWord 0x00000001#32 { base with pc := 0x000FFFFC#32 }).pc = 0#32 ∧
    (stepWord 0x00000001#32 { base with pc := 0x000FFFFC#32 }).cycles = 1#32 := by decide

/-- S6. -/
theorem test_call_pushes_return_address :
    (stepWord 0x80000010#32 { base with pc := 0x18#32 }).pc = 0x2C#32 ∧
    (stepWord 0x80000010#32 { base with pc := 0x18#32 }).rsp = 0x000FFFEC#32 ∧
    readWord (stepWord 0x80000010#32 { base with pc := 0x18#32 }) 0x000FFFEC#32 = 0x1C#32 := by decide

/-- 2.2. -/
theorem test_call_at_top_of_memory :
    (stepWord 0x80000010#32 { base with pc := 0x000FFFFC#32 }).pc = 0x10#32 ∧
    readWord (stepWord 0x80000010#32 { base with pc := 0x000FFFFC#32 }) 0x000FFFEC#32 = 0#32 := by decide

/-- 2.1. -/
theorem test_bra_targets :
    (stepWord 0x9FFFFFE4#32 { base with pc := 0x2C#32 }).pc = 0x14#32 ∧
    (stepWord 0x900FFFE4#32 { base with pc := 0x08#32 }).pc = 0x000FFFF0#32 ∧
    (stepWord 0x9FFFFFF0#32 { base with pc := 0x08#32 }).pc = 0x000FFFFC#32 ∧
    (stepWord 0x9ABCDE13#32 base).pc = 0x000CDF14#32 := by decide

/-- 2.2. -/
theorem test_bz_taken_and_not :
    (stepWord 0xA0000004#32 { stack [0#32, 9#32] with pc := 0x28#32 }).pc = 0x30#32 ∧
    tops 1 (stepWord 0xA0000004#32 { stack [0#32, 9#32] with pc := 0x28#32 }) = [9#32] ∧
    (stepWord 0xA0000004#32 { stack [3#32, 9#32] with pc := 0x28#32 }).pc = 0x2C#32 ∧
    tops 1 (stepWord 0xA0000004#32 { stack [3#32, 9#32] with pc := 0x28#32 }) = [9#32] ∧
    (stepWord 0xA0000004#32 { stack [0xFFFFFFFF#32] with pc := 0x28#32 }).pc = 0x2C#32 := by decide

/-- S12; 2.3: the pop does not clear the cell. -/
theorem test_fetch_reads :
    tops 1 (stepWord 0xF0000000#32 (writeWord 0x200#32 0xDEADBEEF#32 (stack [0x00100200#32]))) = [0xDEADBEEF#32] ∧
    tops 1 (stepWord 0xF0000000#32 (stack [0x000FEFFC#32])) = [0x000FEFFC#32] := by decide

/-- S8. -/
theorem test_fetch_misaligned :
    record (stepWord 0xF0000000#32 (stack [0x102#32])) = (true, .misalignedWordAccess, 0x102#32) ∧
    record (stepWord 0xF0000000#32 (stack [0xFFFFFFFF#32])) = (true, .misalignedWordAccess, 0xFFFFFFFF#32) := by decide

/-- 2.3. -/
theorem test_store_bytes :
    readWord (stepWord 0xF0000001#32 (stack [0x200#32, 0x11223344#32])) 0x200#32 = 0x11223344#32 ∧
    readByte (stepWord 0xF0000001#32 (stack [0x200#32, 0x11223344#32])) 0x200#32 = 0x44#8 ∧
    readByte (stepWord 0xF0000001#32 (stack [0x200#32, 0x11223344#32])) 0x203#32 = 0x11#8 ∧
    (stepWord 0xF0000001#32 (stack [0x200#32, 0x11223344#32])).dsp = 0x000FF000#32 := by decide

/-- 2.3. -/
theorem test_store_misaligned : record (stepWord 0xF0000001#32 (stack [0x202#32, 5#32])) = (true, .misalignedWordAccess, 0x202#32) := by decide

/-- 2.3. -/
theorem test_cFetch_zero_extends :
    tops 1 (stepWord 0xF0000002#32 (writeWord 0x200#32 0x11223384#32 (stack [0x200#32]))) = [0x84#32] ∧
    tops 1 (stepWord 0xF0000002#32 (writeWord 0x200#32 0x11223384#32 (stack [0x00100203#32]))) = [0x11#32] := by decide

/-- 2.3. -/
theorem test_cStore_lanes :
    readWord (stepWord 0xF0000003#32 (writeWord 0x200#32 0x11223344#32 (stack [0x200#32, 0xFFFFFFAB#32]))) 0x200#32 = 0x112233AB#32 ∧
    readWord (stepWord 0xF0000003#32 (writeWord 0x200#32 0x11223344#32 (stack [0x201#32, 0xFFFFFFAB#32]))) 0x200#32 = 0x1122AB44#32 ∧
    readWord (stepWord 0xF0000003#32 (writeWord 0x200#32 0x11223344#32 (stack [0x202#32, 0xFFFFFFAB#32]))) 0x200#32 = 0x11AB3344#32 ∧
    readWord (stepWord 0xF0000003#32 (writeWord 0x200#32 0x11223344#32 (stack [0x203#32, 0xFFFFFFAB#32]))) 0x200#32 = 0xAB223344#32 := by decide

/-- S10, the big-endian reading. -/
theorem test_cStore_big_endian :
    readWord (writeByte 0x201#32 0xAB#8 (writeWord 0x200#32 0x11223344#32 { base with cfg := { Config.ref with byteOrder := .big } }))
      0x200#32 = 0x11AB3344#32 := by decide

/-- 2.3. -/
theorem test_plusStore_wraps :
    readWord (stepWord 0xF0000004#32 (writeWord 0x300#32 0xFFFFFFFF#32 (stack [0x300#32, 1#32]))) 0x300#32 = 0#32 ∧
    readWord (stepWord 0xF0000004#32 (writeWord 0x304#32 9#32 (stack [0x304#32, 5#32]))) 0x304#32 = 0xE#32 ∧
    (stepWord 0xF0000004#32 (stack [0x304#32, 5#32])).dsp = 0x000FF000#32 := by decide

/-- 2.3. -/
theorem test_plusStore_misaligned : record (stepWord 0xF0000004#32 (stack [0x305#32, 5#32])) = (true, .misalignedWordAccess, 0x305#32) := by decide

/-- 2.4: every binary and unary vector checks the cell below and the depth too. -/
theorem test_plus :
    alu 0xF0000005#32 [1#32, 0xFFFFFFFF#32, 0xAAAA#32] = ([0#32, 0xAAAA#32], 4#32) ∧
    alu 0xF0000005#32 [1#32, 0x7FFFFFFF#32, 0xAAAA#32] = ([0x80000000#32, 0xAAAA#32], 4#32) := by decide

theorem test_minus :
    alu 0xF0000006#32 [1#32, 0#32, 0xAAAA#32] = ([0xFFFFFFFF#32, 0xAAAA#32], 4#32) ∧
    alu 0xF0000006#32 [7#32, 3#32, 0xAAAA#32] = ([0xFFFFFFFC#32, 0xAAAA#32], 4#32) := by decide

theorem test_times :
    alu 0xF0000007#32 [0x00010000#32, 0x00010000#32, 0xAAAA#32] = ([0#32, 0xAAAA#32], 4#32) ∧
    alu 0xF0000007#32 [5#32, 0xFFFFFFFD#32, 0xAAAA#32] = ([0xFFFFFFF1#32, 0xAAAA#32], 4#32) := by decide

theorem test_divide_truncates :
    alu 0xF0000008#32 [2#32, 0xFFFFFFF9#32, 0xAAAA#32] = ([0xFFFFFFFD#32, 0xAAAA#32], 4#32) ∧
    alu 0xF0000008#32 [0xFFFFFFFE#32, 7#32, 0xAAAA#32] = ([0xFFFFFFFD#32, 0xAAAA#32], 4#32) ∧
    alu 0xF0000008#32 [2#32, 0xFFFFFFFF#32, 0xAAAA#32] = ([0#32, 0xAAAA#32], 4#32) ∧
    alu 0xF0000008#32 [0xFFFFFFFA#32, 20#32, 0xAAAA#32] = ([0xFFFFFFFD#32, 0xAAAA#32], 4#32) := by decide

theorem test_divide_corners :
    alu 0xF0000008#32 [0#32, 10#32, 0xAAAA#32] = ([0#32, 0xAAAA#32], 4#32) ∧
    alu 0xF0000008#32 [0xFFFFFFFF#32, 0x80000000#32, 0xAAAA#32] = ([0x80000000#32, 0xAAAA#32], 4#32) ∧
    alu 0xF0000008#32 [2#32, 0x80000000#32, 0xAAAA#32] = ([0xC0000000#32, 0xAAAA#32], 4#32) := by decide

theorem test_and :
    alu 0xF0000009#32 [0x00000FF0#32, 0x0000FF0F#32, 0xAAAA#32] = ([0x00000F00#32, 0xAAAA#32], 4#32) ∧
    alu 0xF0000009#32 [0#32, 0xFFFFFFFF#32, 0xAAAA#32] = ([0#32, 0xAAAA#32], 4#32) := by decide

theorem test_or : alu 0xF000000A#32 [0x00000FF0#32, 0x0000FF0F#32, 0xAAAA#32] = ([0x0000FFFF#32, 0xAAAA#32], 4#32) := by decide

theorem test_xor :
    alu 0xF000000B#32 [0x00000FF0#32, 0x0000FF0F#32, 0xAAAA#32] = ([0x0000F0FF#32, 0xAAAA#32], 4#32) ∧
    alu 0xF000000B#32 [0xFFFFFFFF#32, 0x12345678#32, 0xAAAA#32] = ([0xEDCBA987#32, 0xAAAA#32], 4#32) := by decide

theorem test_not :
    alu 0xF000000C#32 [1#32, 0xAAAA#32] = ([0xFFFFFFFE#32, 0xAAAA#32], 0#32) ∧
    alu 0xF000000C#32 [0x0000FFFF#32, 0xAAAA#32] = ([0xFFFF0000#32, 0xAAAA#32], 0#32) := by decide

theorem test_zeroEqual :
    alu 0xF000000D#32 [0#32, 0xAAAA#32] = ([0xFFFFFFFF#32, 0xAAAA#32], 0#32) ∧
    alu 0xF000000D#32 [0x80000000#32, 0xAAAA#32] = ([0#32, 0xAAAA#32], 0#32) := by decide

theorem test_zeroGreater :
    alu 0xF000000E#32 [0#32, 0xAAAA#32] = ([0#32, 0xAAAA#32], 0#32) ∧
    alu 0xF000000E#32 [1#32, 0xAAAA#32] = ([0xFFFFFFFF#32, 0xAAAA#32], 0#32) ∧
    alu 0xF000000E#32 [0x80000000#32, 0xAAAA#32] = ([0#32, 0xAAAA#32], 0#32) := by decide

theorem test_zeroLess :
    alu 0xF000000F#32 [0#32, 0xAAAA#32] = ([0#32, 0xAAAA#32], 0#32) ∧
    alu 0xF000000F#32 [0x7FFFFFFF#32, 0xAAAA#32] = ([0#32, 0xAAAA#32], 0#32) ∧
    alu 0xF000000F#32 [0x80000000#32, 0xAAAA#32] = ([0xFFFFFFFF#32, 0xAAAA#32], 0#32) := by decide

theorem test_negate :
    alu 0xF0000010#32 [3#32, 0xAAAA#32] = ([0xFFFFFFFD#32, 0xAAAA#32], 0#32) ∧
    alu 0xF0000010#32 [0x80000000#32, 0xAAAA#32] = ([0x80000000#32, 0xAAAA#32], 0#32) := by decide

theorem test_onePlus :
    alu 0xF0000011#32 [5#32, 0xAAAA#32] = ([6#32, 0xAAAA#32], 0#32) ∧
    alu 0xF0000011#32 [0xFFFFFFFF#32, 0xAAAA#32] = ([0#32, 0xAAAA#32], 0#32) := by decide

theorem test_oneMinus :
    alu 0xF0000012#32 [0#32, 0xAAAA#32] = ([0xFFFFFFFF#32, 0xAAAA#32], 0#32) ∧
    alu 0xF0000012#32 [0x80000000#32, 0xAAAA#32] = ([0x7FFFFFFF#32, 0xAAAA#32], 0#32) := by decide

theorem test_twoStar :
    alu 0xF0000013#32 [6#32, 0xAAAA#32] = ([0xC#32, 0xAAAA#32], 0#32) ∧
    alu 0xF0000013#32 [0x80000001#32, 0xAAAA#32] = ([2#32, 0xAAAA#32], 0#32) := by decide

theorem test_twoSlash :
    alu 0xF0000014#32 [7#32, 0xAAAA#32] = ([3#32, 0xAAAA#32], 0#32) ∧
    alu 0xF0000014#32 [0xFFFFFFFE#32, 0xAAAA#32] = ([0x7FFFFFFF#32, 0xAAAA#32], 0#32) := by decide

/-- 2.5. -/
theorem test_dup :
    tops 3 (stepWord 0xF0000015#32 (stack [5#32, 1#32])) = [5#32, 5#32, 1#32] ∧
    (stepWord 0xF0000015#32 (stack [5#32, 1#32])).dsp = 0x000FEFF4#32 := by decide

theorem test_over :
    tops 4 (stepWord 0xF0000016#32 (stack [2#32, 1#32, 9#32])) = [1#32, 2#32, 1#32, 9#32] ∧
    (stepWord 0xF0000016#32 (stack [2#32, 1#32, 9#32])).dsp = 0x000FEFF0#32 := by decide

theorem test_swap :
    tops 3 (stepWord 0xF0000017#32 (stack [2#32, 1#32, 9#32])) = [1#32, 2#32, 9#32] ∧
    (stepWord 0xF0000017#32 (stack [2#32, 1#32, 9#32])).dsp = 0x000FEFF4#32 := by decide

theorem test_rot :
    tops 4 (stepWord 0xF0000018#32 (stack [3#32, 2#32, 1#32, 9#32])) = [1#32, 3#32, 2#32, 9#32] ∧
    (stepWord 0xF0000018#32 (stack [3#32, 2#32, 1#32, 9#32])).dsp = 0x000FEFF0#32 := by decide

theorem test_drop :
    tops 1 (stepWord 0xF0000019#32 (stack [5#32, 1#32])) = [1#32] ∧
    (stepWord 0xF0000019#32 (stack [5#32, 1#32])).dsp = 0x000FEFFC#32 := by decide

/-- 2.6. -/
theorem test_semi_masks :
    (stepWord 0xF000001A#32 (pushR 0xFFF12347#32 base)).pc = 0x00012344#32 ∧
    (stepWord 0xF000001A#32 (pushR 0xFFF12347#32 base)).rsp = 0x000FFFF0#32 := by decide

/-- 2.6. -/
theorem test_toR :
    readWord (stepWord 0xF000001B#32 (stack [0x20#32])) 0x000FFFEC#32 = 0x20#32 ∧
    (stepWord 0xF000001B#32 (stack [0x20#32])).rsp = 0x000FFFEC#32 ∧
    (stepWord 0xF000001B#32 (stack [0x20#32])).dsp = 0x000FF000#32 := by decide

/-- 2.6. -/
theorem test_fromR :
    tops 1 (stepWord 0xF000001C#32 (pushR 0x1C#32 base)) = [0x1C#32] ∧
    (stepWord 0xF000001C#32 (pushR 0x1C#32 base)).rsp = 0x000FFFF0#32 ∧
    (stepWord 0xF000001C#32 (pushR 0x1C#32 base)).dsp = 0x000FEFFC#32 := by decide

/-- 2.6. -/
theorem test_skipIfZero :
    (stepWord 0xF000001D#32 { stack [0#32] with pc := 0x14#32 }).pc = 0x1C#32 ∧
    (stepWord 0xF000001D#32 { stack [0#32] with pc := 0x14#32 }).cycles = 1#32 ∧
    (stepWord 0xF000001D#32 { stack [1#32] with pc := 0x14#32 }).pc = 0x18#32 ∧
    (stepWord 0xF000001D#32 { stack [0#32] with pc := 0x000FFFF8#32 }).pc = 0#32 := by decide

/-- 2.6. -/
theorem test_hwio_screen_and_key :
    (stepWord 0xF000001E#32 (stack [1#32, 0x1234#32])).bridgeCalls = [.setScreenWriteAddress 0x1234#32] ∧
    (stepWord 0xF000001E#32 (stack [2#32, 0x41#32])).bridgeCalls = [.writeScreenMemory 0x41#32] ∧
    tops 1 (stepWord 0xF000001E#32 { stack [0#32] with keyAnswers := [some 0x20#32] }) = [0x20#32] ∧
    tops 1 (stepWord 0xF000001E#32 { stack [0#32] with keyAnswers := [none] }) = [0#32] := by decide

/-- 2.6. -/
theorem test_hwio_reserved_command : record (stepWord 0xF000001E#32 (stack [3#32, 7#32])) = (true, .reservedHwioCommand, 3#32) := by decide

/-! ## The step, Reset and the host -/

/-- 2.2. -/
theorem test_step_counts :
    (stepWord 0x90000000#32 { base with cycles := 999#32 }).cycles = 0#32 ∧
    (stepWord 0x90000000#32 { base with cycles := 999#32 }).signal = 60#32 ∧
    (stepWord 0x90000000#32 { base with cycles := 998#32 }).cycles = 999#32 ∧
    (stepWord 0x90000000#32 { base with cycles := 998#32 }).signal = 0#32 := by decide

/-- 2.1. -/
theorem test_step_reserved :
    record (stepWord 0xE1234567#32 base) = (true, .reservedClass, 0xE1234567#32) ∧
    record (stepWord 0xF00000FF#32 base) = (true, .reservedPrimitive, 0xFF#32) := by decide

/-- 2.7. -/
theorem test_reset_entry :
    (resetOp (writeWord 8#32 0xFFF00013#32 base)).pc = 0x10#32 ∧
    (resetOp (writeWord 8#32 0xFFF00013#32 base)).dsp = 0x000FEFFC#32 ∧
    (resetOp (writeWord 8#32 0xFFF00013#32 base)).bridgeCalls = [.reset] ∧
    tops 1 (resetOp { base with cfg := otherConfig }) = [0x40#32] := by decide

theorem test_reset_memory_is_canonical : State.reset.mem.wf = true := by decide

/-- R38: the obligation InWindow. -/
theorem test_safe_points :
    (writeWord 0x100#32 0xF0000005#32 (stack [1#32, 2#32])).safe = true ∧
    (writeWord 0x100#32 0xF0000005#32 (stack [1#32])).safe = false ∧
    (writeWord 0x100#32 0xF000001A#32 base).safe = false ∧
    State.inWindow { base with dsp := 0x000FDFFC#32 } = false := by decide

/-- S9. -/
theorem test_stepOverTarget :
    stepOverTarget (writeWord 0x18#32 0x80000010#32 { base with pc := 0x18#32 }) = some 0x1C#32 ∧
    stepOverTarget (writeWord 0x1C#32 1#32 { base with pc := 0x1C#32 }) = none ∧
    stepOverTarget (writeWord 0x000FFFFC#32 0x80000000#32 { base with pc := 0x000FFFFC#32 }) = some 0#32 := by decide

/-- 2.7. -/
theorem test_execute_results :
    (execute (.one 0x10#32) (writeWord 0x10#32 0x9FFFFFFC#32 { base with pc := 0x10#32 })).map Prod.fst = some .breakpoint ∧
    (execute (.one 0x14#32) (writeWord 0x10#32 0x90000000#32 { base with pc := 0x10#32, cycles := 999#32 })).map Prod.fst =
      some (.frame 60#32) ∧
    (execute .none { base with halted := true }).map Prod.fst = some .halted := by decide

/-- 2.7. -/
theorem test_poke_peek : peek 0x100#32 (poke 0x103#32 0x12345678#32 base) = 0x12345678#32 := by decide

/-! ## Witnesses: states and operands that meet the hypotheses of the obligations, clause by clause, at boundary values -/

/-- The next state exists and is not halted. -/
def runsOn (i : Instr) (s : State) : Bool :=
  match exec i s with
  | .next t => !t.halted
  | .fault _ => false
  | .refused _ => false

theorem witness_DecodeOfEncodeGivesBack :
    Instr.wf defaultPrimCodes .fetch = true ∧ Instr.wf defaultPrimCodes .hwio = true ∧
    Instr.wf [] (.lit 0x7FFFFFFF#31) = true ∧ primCodesWf otherConfig.primCodes = true := by decide

theorem witness_DecodesExactlyWhenSignificantBitsMatch :
    primCodesWf defaultPrimCodes = true ∧ primCodesWf otherConfig.primCodes = true := by decide

theorem witness_EveryWordFallsInTheRowOfItsClass :
    primCodesWf defaultPrimCodes = true ∧
    ((0x7FFFFFFF#32).extractLsb' 28 4).toNat ≤ 7 ∧ (0x80000000#32).extractLsb' 28 4 = 8#4 ∧
    (0x9FFFFFFF#32).extractLsb' 28 4 = 9#4 ∧ (0xA0000000#32).extractLsb' 28 4 = 10#4 ∧
    (11 ≤ ((0xB0000000#32).extractLsb' 28 4).toNat ∧ ((0xB0000000#32).extractLsb' 28 4).toNat ≤ 14) ∧
    (11 ≤ ((0xEFFFFFFF#32).extractLsb' 28 4).toNat ∧ ((0xEFFFFFFF#32).extractLsb' 28 4).toNat ≤ 14) ∧
    ((0xF000001F#32).extractLsb' 28 4 = 15#4 ∧ (0xF000001F#32).extractLsb' 0 8 ∉ defaultPrimCodes) ∧
    ((0xF000001E#32).extractLsb' 28 4 = 15#4 ∧ Instr.hwio.primNumber = some 30 ∧
      defaultPrimCodes[30]? = some ((0xF000001E#32).extractLsb' 0 8)) := by decide

theorem witness_LiteralsAreTheWordsWithEqualTopBits :
    (0x7FFFFFFF#32).getLsbD 31 = false ∧ (0x00000000#32).getLsbD 31 = false := by decide

theorem witness_RelativeTargetDependsOnOffsetBits19To2 :
    (0x00000104#32 &&& 3#32 = 0#32 ∧ (0xABCDE13#28).extractLsb' 2 18 = (0x00CDE10#28).extractLsb' 2 18) ∧
    (0x000FFFFC#32 &&& 0x000FFFFC#32 = 0x000FFFFC#32) := by decide

theorem witness_LitPushesItsSignExtendedLiteral : (0x7FFFFFFF#32).getLsbD 31 = false := by decide

theorem witness_RelativeClassesTransferControl :
    (0x8FFFFFFF#32).extractLsb' 28 4 = 8#4 ∧ (0x90000000#32).extractLsb' 28 4 = 9#4 ∧
    (0xAFFFFFFF#32).extractLsb' 28 4 = 10#4 ∧
    readWord (stack [0#32]) (stack [0#32]).dsp = 0#32 ∧ readWord (stack [1#32]) (stack [1#32]).dsp ≠ 0#32 := by decide

theorem witness_WordPrimitivesAccessAlignedOrHalt :
    readWord (stack [0xFFFFFFFC#32]) (stack [0xFFFFFFFC#32]).dsp &&& 3#32 = 0#32 ∧
    readWord (stack [1#32]) (stack [1#32]).dsp &&& 3#32 ≠ 0#32 ∧
    ¬ inCell (stack [1#32]).dsp (readWord (stack [1#32]) (stack [1#32]).dsp) ∧
    ¬ inCell ((stack [1#32]).dsp + 4#32) (readWord (stack [1#32]) (stack [1#32]).dsp) := by
  unfold inCell; decide

theorem witness_StoredByteShowsInItsLaneOfTheWord :
    (stack [0x203#32, 0x1AB#32]).mem.wf = true ∧ ∃ t, exec .cStore (stack [0x203#32, 0x1AB#32]) = .next t :=
  ⟨by decide, _, rfl⟩

theorem witness_DivideTruncatesTowardZero :
    tops 1 (stack [0#32, 10#32]) = [0#32] ∧
    tops 2 (stack [0xFFFFFFFF#32, 0x80000000#32]) = [0xFFFFFFFF#32, 0x80000000#32] ∧
    tops 2 (stack [1#32, 0x80000000#32]) = [1#32, 0x80000000#32] := by decide

theorem witness_BinaryPrimitivesChangeOneCell :
    (Instr.plus ∈ binaryInstrs ∧ ∃ t, exec .plus (stack [1#32, 2#32]) = .next t) ∧
    (Instr.bitXor ∈ binaryInstrs ∧ ∃ t, exec .bitXor (stack [1#32, 2#32]) = .next t) :=
  ⟨⟨by decide, _, rfl⟩, ⟨by decide, _, rfl⟩⟩

theorem witness_UnaryPrimitivesChangeTheTopCell :
    (Instr.twoSlash ∈ unaryInstrs ∧ ∃ t, exec .twoSlash (stack [1#32]) = .next t) ∧
    (∃ t, exec .cFetch (stack [1#32]) = .next t) ∧
    (misaligned (topD (stack [4#32])) = false ∧ ∃ t, exec .fetch (stack [4#32]) = .next t) :=
  ⟨⟨by decide, _, rfl⟩, ⟨_, rfl⟩, by decide, _, rfl⟩

theorem witness_StoringPrimitivesChangeOnlyTheAddressed :
    (misaligned (topD (stack [0xFFFFFFFC#32, 5#32])) = false ∧
      (∃ t, exec .store (stack [0xFFFFFFFC#32, 5#32]) = .next t) ∧
      ∃ t, exec .plusStore (stack [0xFFFFFFFC#32, 5#32]) = .next t) ∧
    (∃ t, exec .cStore (stack [0xFFFFFFFF#32, 5#32]) = .next t) :=
  ⟨⟨by decide, ⟨_, rfl⟩, _, rfl⟩, _, rfl⟩

theorem witness_ShufflesHaveTheirStackEffects : (stack [3#32, 2#32, 1#32, 9#32]).mem.wf = true := by decide

theorem witness_SwapAndRotUndoThemselves : (stack [3#32, 2#32, 1#32]).mem.wf = true := by decide

theorem witness_SkipIfZeroSkipsOneWord :
    readWord (stack [0#32]) (stack [0#32]).dsp = 0#32 ∧ readWord (stack [1#32]) (stack [1#32]).dsp ≠ 0#32 := by decide

theorem witness_HwioServesItsThreeCommands :
    tops 1 (stack [0#32]) = [0#32] ∧ tops 1 (stack [1#32]) = [1#32] ∧ tops 1 (stack [2#32]) = [2#32] ∧
    tops 1 (stack [3#32]) = [3#32] ∧ tops 1 (stack [0x00000100#32]) = [0x00000100#32] := by decide

theorem witness_HwioTakesTheReadyKeyAnswer :
    let s := { stack [0#32] with keyAnswers := [some 0x20#32, none] }
    s.mem.wf = true ∧ readWord s s.dsp = 0#32 ∧ s.keyAnswers = some 0x20#32 :: [none] := by decide

theorem witness_ControlAndTransferFrames :
    (∃ t, exec (.lit 5#31) base = .next t) ∧ (∃ t, exec (.call 4#28) base = .next t) ∧
    (∃ t, exec (.bra 4#28) base = .next t) ∧ (∃ t, exec (.bz 4#28) (stack [0#32]) = .next t) ∧
    (∃ t, exec .skipIfZero (stack [1#32]) = .next t) ∧ (∃ t, exec .semi base = .next t) ∧
    (∃ t, exec .toR (stack [1#32]) = .next t) ∧ (∃ t, exec .fromR base = .next t) :=
  ⟨⟨_, rfl⟩, ⟨_, rfl⟩, ⟨_, rfl⟩, ⟨_, rfl⟩, ⟨_, rfl⟩, ⟨_, rfl⟩, ⟨_, rfl⟩, _, rfl⟩

theorem witness_OnlyTheControlInstructionsWritePcAndRsp :
    ∃ t, exec .plus (stack [1#32, 2#32]) = .next t ∧ (stack [1#32, 2#32]).halted = false ∧ t.halted = false :=
  ⟨_, rfl, rfl, rfl⟩

theorem witness_StackPointersMoveByTheStackEffect :
    (∃ t, exec .rot (stack [3#32, 2#32, 1#32]) = .next t ∧ (stack [3#32, 2#32, 1#32]).halted = false ∧
      t.halted = false) ∧
    ∃ t, exec .toR (stack [1#32]) = .next t ∧ (stack [1#32]).halted = false ∧ t.halted = false :=
  ⟨⟨_, rfl, rfl, rfl⟩, _, rfl, rfl, rfl⟩

theorem witness_OnlyHwioTalksToTheBridge :
    (∃ t, exec .store (stack [4#32, 5#32]) = .next t ∧ (stack [4#32, 5#32]).halted = false ∧ t.halted = false) ∧
    (∃ t, exec .store (stack [1#32, 5#32]) = .next t ∧ t.halted = true) :=
  ⟨⟨_, rfl, rfl, rfl⟩, _, rfl, rfl⟩

theorem witness_OnlyThreePrimitivesCheckAlignment :
    (stack [3#32]).halted = false ∧ (topD (stack [3#32])).extractLsb' 0 2 ≠ 0#2 ∧
    (topD (stack [0x00100004#32])).extractLsb' 0 2 = 0#2 ∧ runsOn .cFetch (stack [3#32]) = true := by decide

theorem witness_AccessesWrapAndReadBackWhatWasWritten : (stack [1#32, 2#32]).mem.wf = true := by decide

theorem witness_WordAndByteViewsAreOneStorage :
    (0xFFFFFFFC#32 &&& 3#32 = 0#32 ∧ base.cfg.byteOrder = .little) ∧ otherConfig.byteOrder = .big ∧
    base.mem.wf = true := by decide

/-- A `!` at 0x100 to the next word: D = [0x104, 0xF0000019]. -/
def storeAhead : State := writeWord 0x100#32 0xF0000001#32 (stack [0x104#32, 0xF0000019#32])

theorem witness_StoreIsSeenByTheNextFetch :
    storeAhead.halted = false ∧ storeAhead.mem.wf = true ∧
    decodeWord storeAhead.cfg.primCodes (readWord storeAhead storeAhead.pc) = .ok .store ∧
    readWord storeAhead storeAhead.dsp &&& 3#32 = 0#32 ∧
    readWord storeAhead storeAhead.dsp &&& 0x000FFFFC#32 = (storeAhead.pc + 4#32) &&& 0x000FFFFC#32 := by decide

/-- `base` with a word at `pc` and a counter. -/
def atPc (w : Word) (cycles : Word) : State := { writeWord 0x100#32 w (stack [1#32, 2#32]) with cycles := cycles }

theorem witness_StepFetchesAdvancesRunsAndCounts :
    ({ base with halted := true } : State).halted = true ∧
    ((atPc 0xB0000000#32 0#32).halted = false ∧ primCodesWf (atPc 0xB0000000#32 0#32).cfg.primCodes = true ∧
      decodeWord defaultPrimCodes (readWord (atPc 0xB0000000#32 0#32) 0x100#32) = .error (.reservedClass 0xB0000000#32)) ∧
    decodeWord defaultPrimCodes (readWord (atPc 0xF000001F#32 0#32) 0x100#32) = .error (.reservedPrimitive 0x1F#8) ∧
    (decodeWord defaultPrimCodes (readWord (atPc 0xF0000005#32 999#32) 0x100#32) = .ok .plus ∧
      runsOn .plus (advancePc (atPc 0xF0000005#32 999#32)) = true ∧ 1000 ≤ (999#32 + 1#32).toNat ∧
      (998#32 + 1#32).toNat < 1000) ∧
    (∃ u, exec .fetch (advancePc (atPc 0xF0000000#32 0#32)) = .next u ∧ u.halted = true) :=
  ⟨by decide, by decide, by decide, by decide, _, rfl, rfl⟩

theorem witness_ReservedWordsHaltTheStep :
    ((atPc 0xB0000000#32 0#32).halted = false ∧
      ((readWord (atPc 0xB0000000#32 0#32) 0x100#32).extractLsb' 28 4).toNat = 11) ∧
    ((readWord (atPc 0xEFFFFFFF#32 0#32) 0x100#32).extractLsb' 28 4).toNat = 14 ∧
    ((readWord (atPc 0xF000001F#32 0#32) 0x100#32).extractLsb' 28 4 = 15#4 ∧
      (readWord (atPc 0xF000001F#32 0#32) 0x100#32).extractLsb' 0 8 ∉ defaultPrimCodes) := by decide

theorem witness_StepHaltsExactlyOnTheFourConditions :
    (∃ t, (atPc 0xF0000000#32 0#32).halted = false ∧ primCodesWf (atPc 0xF0000000#32 0#32).cfg.primCodes = true ∧
      step (atPc 0xF0000000#32 0#32) = .next t) ∧
    fatalOf (atPc 0xF0000000#32 0#32) = some (.misalignedWordAccess, 1#32) ∧
    fatalOf (atPc 0xE0000000#32 0#32) = some (.reservedClass, 0xE0000000#32) ∧
    fatalOf (atPc 0xF0ABCDFF#32 0#32) = some (.reservedPrimitive, 0xFF#32) ∧
    fatalOf (writeWord 0x100#32 0xF000001E#32 (stack [3#32])) = some (.reservedHwioCommand, 3#32) ∧
    fatalOf (atPc 0xF000001E#32 0#32) = none ∧ fatalOf (atPc 0xF0000005#32 0#32) = none :=
  ⟨⟨_, rfl, by decide, rfl⟩, by decide, by decide, by decide, by decide, by decide, by decide⟩

theorem witness_StepKeepsTheMachineInvariant :
    (atPc 0xF0000005#32 999#32).inv = true ∧ ∃ t, step (atPc 0xF0000005#32 999#32) = .next t := ⟨by decide, _, rfl⟩

theorem witness_ProgramsCannotObserveTheCycleCounter : ∃ t, step (atPc 0xF0000005#32 999#32) = .next t := ⟨_, rfl⟩

/-- A BRA to itself at 0x100, with a budget of 2. -/
def selfLoop : State := { writeWord 0x100#32 0x9FFFFFFC#32 base with cfg := { Config.ref with cyclesPerFrame := 2#32 } }

theorem witness_CompletedStepsAreCountedModuloTheBudget :
    selfLoop.cfg.wf = true ∧ selfLoop.cycles = 0#32 ∧
    ∀ k ≤ 2, ∃ t, runSteps k selfLoop = some t ∧ t.halted = false := by
  refine ⟨by decide, by decide, fun k hk => ?_⟩
  match k, hk with
  | 0, _ => exact ⟨_, rfl, rfl⟩
  | 1, _ => exact ⟨_, rfl, rfl⟩
  | 2, _ => exact ⟨_, rfl, rfl⟩

/-- S6: CALL 0x2C at 0x18, `;` at 0x2C. -/
def callReturn : State := writeWord 0x2C#32 0xF000001A#32 (writeWord 0x18#32 0x80000010#32 { base with pc := 0x18#32 })

theorem witness_CallThenReturnComesBack :
    callReturn.halted = false ∧ callReturn.mem.wf = true ∧
    decodeWord callReturn.cfg.primCodes (readWord callReturn callReturn.pc) = .ok (.call 0x10#28) ∧
    decodeWord callReturn.cfg.primCodes
      (readWord callReturn (relativeTarget ((callReturn.pc + 4#32) &&& 0x000FFFFC#32) 0x10#28)) = .ok .semi ∧
    ¬ inCell (callReturn.rsp - 4#32) (relativeTarget ((callReturn.pc + 4#32) &&& 0x000FFFFC#32) 0x10#28) :=
  ⟨by decide, by decide, by decide, by decide, by unfold inCell; decide⟩

/-- A halted core in a session. -/
def haltedSession : Session := { state := { base with halted := true }, resetDone := true }

theorem witness_OnlyResetLeavesTheHaltedState :
    haltedSession.state.halted = true ∧ HostCall.step ≠ .reset ∧
    (∃ a q', Session.call .step haltedSession = .next (a, q')) ∧
    (∃ a q', Session.call (.execute .none) haltedSession = .next (a, q')) ∧
    (∃ a q', Session.call (.loadImage []) haltedSession = .next (a, q')) :=
  ⟨rfl, by decide, ⟨_, _, rfl⟩, ⟨_, _, rfl⟩, _, _, rfl⟩

theorem witness_ResetEstablishesTheEntryState : base.mem.wf = true := by decide

theorem witness_StepsHaveNoMeaningBeforeTheFirstReset :
    (Session.powerUp Config.ref [] []).resetDone = false ∧ haltedSession.resetDone = true ∧
    (∃ r t, execute .none haltedSession.state = some (r, t)) ∧
    execute .none { selfLoop with cfg := { selfLoop.cfg with frameRate := 0#32 } } = none :=
  ⟨rfl, rfl, ⟨_, _, rfl⟩, by decide⟩

theorem witness_ExecuteStepsThenTestsHaltFrameBreakpoint :
    base.cfg.frameRate ≠ 0#32 ∧ ({ base with halted := true } : State).halted = true ∧
    (selfLoop.halted = false ∧ ∃ t, step selfLoop = .next t) := ⟨by decide, rfl, rfl, _, rfl⟩

theorem witness_ExecuteReturnsWithinTheBudget :
    (selfLoop.cfg.wf = true ∧ selfLoop.cyclesInRange = true) ∧
    State.cyclesInRange { selfLoop with cycles := 1#32 } = true := by decide

theorem witness_BreakpointsMatchExactly :
    0x000FFFFC#32 &&& 0x000FFFFC#32 = 0x000FFFFC#32 ∧ 0x00100000#32 &&& 0x000FFFFC#32 ≠ 0x00100000#32 ∧
    0x00000102#32 &&& 0x000FFFFC#32 ≠ 0x00000102#32 := by decide

theorem witness_StepOverTargetIsAfterACall :
    (readWord callReturn callReturn.pc).extractLsb' 28 4 = 8#4 ∧
    (readWord selfLoop selfLoop.pc).extractLsb' 28 4 ≠ 8#4 := by decide

theorem witness_PeekSeesWhatPokeWrote : (stack [1#32]).mem.wf = true := by decide

theorem witness_ImageLoadsVerbatimFromByteZero :
    base.mem.wf = true ∧ ([0x01#8, 0x02#8] : List Byte).length ≤ 2 ^ 20 ∧
    (List.replicate (2 ^ 20) (0x01#8)).length ≤ 2 ^ 20 ∧ 2 ^ 20 < (List.replicate (2 ^ 20 + 1) (0x01#8)).length := by
  exact ⟨by decide, by decide, by rw [List.length_replicate], by rw [List.length_replicate]; omega⟩

end Sys2Proof.Tests
end

/-! # The state's invariants: what every step keeps (10_state.md) -/

namespace Sys2Proof.Machine

/-! ## The machine invariant (R5, R11, R18, R30) -/

theorem inv_iff (s : State) :
    s.inv = true ↔ s.cfg.wf = true ∧ s.mem.wf = true ∧ s.pc &&& pcMask = s.pc ∧
      (s.halted = true ∨ s.cycles.toNat < s.cfg.cyclesPerFrame.toNat) := by
  simp [State.inv, State.pcInRange, State.cyclesInRange, and_assoc]

/-- R5: what a legal configuration says of the budget. -/
theorem budget_of_wf {c : Config} (h : c.wf = true) : 1 ≤ c.cyclesPerFrame.toNat ∧ c.cyclesPerFrame.toNat < 2 ^ 31 := by
  simp only [Config.wf, Config.budgetInRange, Bool.and_eq_true, decide_eq_true_eq] at h
  obtain ⟨-, budget, -⟩ := h
  exact budget

theorem haltedStep_inv {s : State} (h : s.inv = true) : (haltedStep s).inv = true := h

/-- R153: a fatal condition leaves a state within the invariant, wherever `pc` and the counter stood before it. -/
theorem raiseFatal_inv {s : State} (c : HaltCause) (v : Word) (cells : List Word) (hc : s.cfg.wf = true)
    (hm : s.mem.wf = true) : (raiseFatal c v cells s).inv = true :=
  (inv_iff _).2 ⟨hc, raiseFatal_mem_wf s c v cells hm, by simp, .inl rfl⟩

theorem raiseReject_inv {s : State} (r : Reject) (hc : s.cfg.wf = true) (hm : s.mem.wf = true) :
    (raiseReject r s).inv = true := by
  cases r <;> exact raiseFatal_inv _ _ _ hc hm

/-- R18, R70: counting an instruction keeps the counter below the budget: it is reduced exactly when it reaches it. -/
theorem countCycle_cycles_lt {s : State} (hc : s.cfg.wf = true) (h : s.cycles.toNat < s.cfg.cyclesPerFrame.toNat) :
    (countCycle s).cycles.toNat < s.cfg.cyclesPerFrame.toNat := by
  obtain ⟨hpos, hmax⟩ := budget_of_wf hc
  have hsucc : (s.cycles + 1#32).toNat = s.cycles.toNat + 1 := by
    rw [BitVec.toNat_add_of_lt] <;> simp; omega
  rcases countCycle_cases s with ⟨hle, he⟩ | ⟨hlt, he⟩ <;> rw [he]
  · rw [BitVec.toNat_sub_of_le (BitVec.le_def.2 hle)]; omega
  · exact hlt

theorem countCycle_inv {s : State} (h : s.inv = true) (hr : s.halted = false) : (countCycle s).inv = true := by
  obtain ⟨hc, hm, hp, hcyc⟩ := (inv_iff s).1 h
  have hlt := countCycle_cycles_lt hc (hcyc.resolve_left (by simp [hr]))
  exact (inv_iff _).2 ⟨by simpa using hc, by simpa using hm, by simpa using hp, .inr (by simpa using hlt)⟩

theorem finishStep_inv {s : State} (h : s.inv = true) : (finishStep s).inv = true := by
  cases hh : s.halted with
  | true => rwa [finishStep_of_halted hh]
  | false => rw [finishStep_of_running hh]; exact countCycle_inv h hh

theorem advancePc_inv {s : State} (h : s.inv = true) : (advancePc s).inv = true := by
  obtain ⟨hc, hm, -, hcyc⟩ := (inv_iff s).1 h
  exact (inv_iff _).2 ⟨hc, hm, advancePc_pcInRange s, hcyc⟩

theorem Keeps.inv {s t : State} (k : Keeps s t) (h : s.inv = true) : t.inv = true := by
  obtain ⟨hc, hm, hp, hcyc⟩ := (inv_iff s).1 h
  exact (inv_iff t).2 ⟨by rwa [k.cfg], k.memWf hm, k.pcInRange hp, by rwa [k.halted, k.cycles, k.cfg]⟩

/-- An instruction keeps the invariant, whichever of its two ways it ends. -/
theorem exec_inv {i : Instr} {s t : State} (h : s.inv = true) (he : exec i s = .next t) : t.inv = true := by
  obtain ⟨hc, hm, -, -⟩ := (inv_iff s).1 h
  rcases exec_cases he with ⟨cells, rfl, -, -⟩ | ⟨rfl, -, -⟩ | ⟨k, -, -⟩
  · exact raiseFatal_inv _ _ _ hc hm
  · exact raiseFatal_inv _ _ _ hc hm
  · exact k.inv h

/-- Settles O38: each of the three ways a step ends keeps the invariant. -/
theorem stepKeepsTheMachineInvariant : Obligations.StepKeepsTheMachineInvariant := by
  intro s t h hstep
  have ha := advancePc_inv h
  rcases step_next_cases hstep with ⟨-, rfl⟩ | ⟨-, r, -, rfl⟩ | ⟨-, i, u, -, he, rfl⟩
  · exact haltedStep_inv h
  · obtain ⟨hc, hm, -, -⟩ := (inv_iff _).1 ha
    exact raiseReject_inv r hc hm
  · exact finishStep_inv (exec_inv ha he)

/-! ## The counter and the frame signal cannot be observed (R18, R156) -/

/-- The same state with another cycle counter and another value returned by the last step. -/
def State.withCounter (c g : Word) (s : State) : State := { s with cycles := c, signal := g }

/-- `s` and `t` differ at most in the cycle counter and in what the last step returned. -/
def SameButCounter (s t : State) : Prop := s.withCounter t.cycles t.signal = t

/-- A fatal condition draws the counter and the returned value anew (log 3). -/
@[simp] theorem raiseFatal_withCounter (k : HaltCause) (v : Word) (cells : List Word) (c g : Word) (s : State) :
    raiseFatal k v cells (s.withCounter c g) = raiseFatal k v cells s := rfl

@[simp] theorem raiseReject_withCounter (r : Reject) (c g : Word) (s : State) :
    raiseReject r (s.withCounter c g) = raiseReject r s := by
  cases r <;> simp [raiseReject]

@[simp] theorem topD_withCounter (c g : Word) (s : State) : topD (s.withCounter c g) = topD s := rfl

@[simp] theorem secondD_withCounter (c g : Word) (s : State) : secondD (s.withCounter c g) = secondD s := rfl

@[simp] theorem thirdD_withCounter (c g : Word) (s : State) : thirdD (s.withCounter c g) = thirdD s := rfl

@[simp] theorem readWord_withCounter (a c g : Word) (s : State) : readWord (s.withCounter c g) a = readWord s a := rfl

@[simp] theorem writeWord_withCounter (a v c g : Word) (s : State) :
    writeWord a v (s.withCounter c g) = (writeWord a v s).withCounter c g := rfl

@[simp] theorem dropD_withCounter (c g : Word) (s : State) :
    dropD (s.withCounter c g) = (dropD s).withCounter c g := rfl

@[simp] theorem pushD_withCounter (v c g : Word) (s : State) :
    pushD v (s.withCounter c g) = (pushD v s).withCounter c g := rfl

@[simp] theorem withCounter_pc (c g : Word) (s : State) : (s.withCounter c g).pc = s.pc := rfl

@[simp] theorem withCounter_dsp (c g : Word) (s : State) : (s.withCounter c g).dsp = s.dsp := rfl

@[simp] theorem writePc_withCounter (a c g : Word) (s : State) :
    writePc a (s.withCounter c g) = (writePc a s).withCounter c g := rfl

@[simp] theorem callBridge_withCounter (b : BridgeCall) (c g : Word) (s : State) :
    callBridge b (s.withCounter c g) = (callBridge b s).withCounter c g := rfl

@[simp] theorem keyAnswer_withCounter (c g : Word) (s : State) : keyAnswer (s.withCounter c g) = keyAnswer s := rfl

@[simp] theorem takeKey_withCounter (c g : Word) (s : State) :
    takeKey (s.withCounter c g) = (takeKey s).withCounter c g := by
  cases hk : s.keyAnswers <;> simp [takeKey, State.withCounter, hk]

@[simp] theorem hwioGetKey_withCounter (c g : Word) (s : State) :
    hwioGetKey (s.withCounter c g) = (hwioGetKey s).withCounter c g := by
  simp [hwioGetKey]

@[simp] theorem advancePc_withCounter (c g : Word) (s : State) :
    advancePc (s.withCounter c g) = (advancePc s).withCounter c g := rfl

/-- R18: an instruction neither reads nor writes the counter and the returned value; one that raises a fatal condition leaves the same
state whatever they were. -/
theorem exec_withCounter {i : Instr} {s u : State} (c g : Word) (h : exec i s = .next u) :
    exec i (s.withCounter c g) = .next (u.withCounter c g) ∨ exec i (s.withCounter c g) = .next u := by
  cases i
  case fetch =>
    rcases exec_fetch_cases h with ⟨hm, rfl⟩ | ⟨hm, rfl⟩
    · exact .inr (if_pos hm)
    · exact .inl (by simp [exec, execFetch, hm])
  case store =>
    rcases exec_store_cases h with ⟨hm, rfl⟩ | ⟨hm, rfl⟩
    · exact .inr (if_pos hm)
    · exact .inl (by simp [exec, execStore, hm])
  case plusStore =>
    rcases exec_plusStore_cases h with ⟨hm, rfl⟩ | ⟨hm, rfl⟩
    · exact .inr (if_pos hm)
    · exact .inl (by simp [exec, execPlusStore, hm])
  case hwio =>
    rcases exec_hwio_cases h with ⟨h0, rfl⟩ | ⟨h1, rfl⟩ | ⟨h2, rfl⟩ | ⟨h0, h1, h2, rfl⟩
    · exact .inl (by simp [exec, execHwio, h0])
    · exact .inl (by simp [exec, execHwio, h1])
    · exact .inl (by simp [exec, execHwio, h2])
    · exact .inr (by simp [exec, execHwio, h0, h1, h2])
  case bz off =>
    rcases exec_bz_cases h with ⟨hz, rfl⟩ | ⟨hz, rfl⟩ <;> exact .inl (by simp [exec, execBz, isZero, hz])
  case skipIfZero =>
    rcases exec_skipIfZero_cases h with ⟨hz, rfl⟩ | ⟨hz, rfl⟩ <;>
      exact .inl (by simp [exec, execSkipIfZero, isZero, hz])
  case dup => cases h; exact .inl (by simp [exec, execDup])
  case overCell => cases h; exact .inl (by simp [exec, execOver])
  case swap => cases h; exact .inl (by simp [exec, execSwap])
  case rot => cases h; exact .inl (by simp [exec, execRot])
  all_goals cases h; exact .inl rfl

theorem countCycle_eq_withCounter (s : State) : ∃ c g, countCycle s = s.withCounter c g := by
  rcases countCycle_cases s with ⟨-, h⟩ | ⟨-, h⟩ <;> exact ⟨_, _, h⟩

theorem countCycle_sameButCounter (c g : Word) (s : State) :
    SameButCounter (countCycle (s.withCounter c g)) (countCycle s) := by
  obtain ⟨c1, g1, h1⟩ := countCycle_eq_withCounter s
  obtain ⟨c2, g2, h2⟩ := countCycle_eq_withCounter (s.withCounter c g)
  rw [h1, h2]; rfl

theorem finishStep_sameButCounter (c g : Word) (s : State) :
    SameButCounter (finishStep (s.withCounter c g)) (finishStep s) := by
  cases hh : s.halted with
  | true => rw [finishStep_of_halted hh, finishStep_of_halted (s := s.withCounter c g) hh]; rfl
  | false =>
    rw [finishStep_of_running hh, finishStep_of_running (s := s.withCounter c g) hh]
    exact countCycle_sameButCounter c g s

/-- R18, R156: two runs that differ in the counter and the returned value still differ in nothing else after a step. -/
theorem step_withCounter {s t : State} (c g : Word) (h : step s = .next t) :
    ∃ t', step (s.withCounter c g) = .next t' ∧ SameButCounter t' t := by
  rcases step_next_cases h with ⟨hh, rfl⟩ | ⟨hh, r, hd, rfl⟩ | ⟨hh, i, u, hd, he, rfl⟩
  · exact ⟨_, step_of_halted hh, rfl⟩
  · exact ⟨_, step_of_reject hh hd, by rw [advancePc_withCounter, raiseReject_withCounter]; rfl⟩
  · rcases exec_withCounter c g he with he' | he'
    · exact ⟨_, step_of_decoded hh hd he', finishStep_sameButCounter c g u⟩
    · exact ⟨_, step_of_decoded hh hd he', rfl⟩

/-- Settles O40: the relation `SameButCounter` is kept by every step. -/
theorem programsCannotObserveTheCycleCounter : Obligations.ProgramsCannotObserveTheCycleCounter :=
  fun _ _ c g h => step_withCounter c g h

/-! ## Who writes `pc` and `rsp` (R13, R146) -/

@[simp] theorem binaryOp_pc (f : Word → Word → Word) (s : State) : (binaryOp f s).pc = s.pc := rfl

@[simp] theorem binaryOp_rsp (f : Word → Word → Word) (s : State) : (binaryOp f s).rsp = s.rsp := rfl

@[simp] theorem unaryOp_pc (f : Word → Word) (s : State) : (unaryOp f s).pc = s.pc := rfl

@[simp] theorem unaryOp_rsp (f : Word → Word) (s : State) : (unaryOp f s).rsp = s.rsp := rfl

@[simp] theorem hwioGetKey_pc (s : State) : (hwioGetKey s).pc = s.pc := by simp [hwioGetKey]

@[simp] theorem hwioGetKey_rsp (s : State) : (hwioGetKey s).rsp = s.rsp := by simp [hwioGetKey]

/-- Settles O27: by cases on the instruction; the four that can halt are read off the cases of their meanings, and a fatal condition ends
halted. -/
theorem onlyTheControlInstructionsWritePcAndRsp : Obligations.OnlyTheControlInstructionsWritePcAndRsp := by
  intro i s t h _ ht
  cases i
  case fetch =>
    rcases exec_fetch_cases h with ⟨-, rfl⟩ | ⟨-, rfl⟩
    · simp at ht
    · simp
  case store =>
    rcases exec_store_cases h with ⟨-, rfl⟩ | ⟨-, rfl⟩
    · simp at ht
    · simp
  case plusStore =>
    rcases exec_plusStore_cases h with ⟨-, rfl⟩ | ⟨-, rfl⟩
    · simp at ht
    · simp
  case hwio =>
    rcases exec_hwio_cases h with ⟨-, rfl⟩ | ⟨-, rfl⟩ | ⟨-, rfl⟩ | ⟨-, -, -, rfl⟩
    · simp
    · simp
    · simp
    · simp at ht
  case bz => rcases exec_bz_cases h with ⟨-, rfl⟩ | ⟨-, rfl⟩ <;> simp
  case skipIfZero => rcases exec_skipIfZero_cases h with ⟨-, rfl⟩ | ⟨-, rfl⟩ <;> simp
  all_goals cases h; simp

end Sys2Proof.Machine

/-! # Memory, the stack windows and alignment (20_memory.md) -/

namespace Sys2Proof.Machine

open Sys2Proof.Claims

/-! ## Addresses: wrap and alignment (R31, R32, R35) -/

/-- R31: two addresses name the same word exactly when their bits 19 to 2 agree. -/
theorem wordBase_eq_iff (a b : Word) : wordBase a = wordBase b ↔ a.extractLsb' 2 18 = b.extractLsb' 2 18 := by
  rw [← BitVec.toNat_inj, wordBase, wordBase]; omega

/-- R32: two addresses name the same byte exactly when their bits 19 to 0 agree. -/
theorem byteIndex_eq_iff (a b : Word) : byteIndex a = byteIndex b ↔ a.extractLsb' 0 20 = b.extractLsb' 0 20 :=
  BitVec.toNat_inj

/-- R32: bits 31 to 20 of a byte address are ignored. -/
theorem byteIndex_and_byteMask (a : Word) : byteIndex (a &&& 0x000FFFFF#32) = byteIndex a := by
  have hmask : (a &&& 0x000FFFFF#32).toNat = a.toNat % 2 ^ 20 := by
    rw [BitVec.toNat_and]; exact Nat.and_two_pow_sub_one_eq_mod a.toNat 20
  rw [byteIndex_eq, byteIndex_eq, hmask]; exact Nat.mod_mod _ _

/-- R35: the alignment test as a number. -/
theorem toNat_and_three (a : Word) : (a &&& 3#32).toNat = a.toNat % 4 := by
  rw [BitVec.toNat_and]; exact Nat.and_two_pow_sub_one_eq_mod a.toNat 2

theorem aligned_iff (a : Word) : a &&& 3#32 = 0#32 ↔ a.toNat % 4 = 0 := by
  rw [← BitVec.toNat_inj, toNat_and_three]; rfl

/-- R35: an address is aligned exactly when its bits 1 and 0 are zero. -/
theorem misaligned_eq_false_iff (a : Word) : misaligned a = false ↔ a.extractLsb' 0 2 = 0#2 := by
  have hbits : a.extractLsb' 0 2 = 0#2 ↔ a.toNat % 4 = 0 := by simp [← BitVec.toNat_inj]
  rw [hbits, ← aligned_iff]; simp [misaligned]

/-- R33: the bytes of an aligned word are the four from its address up. -/
theorem byteIndex_add_of_aligned {a : Word} (h : a &&& 3#32 = 0#32) {k : Nat} (hk : k < 4) :
    byteIndex (a + BitVec.ofNat 32 k) = wordBase a + k := by
  have ha := (aligned_iff a).1 h
  rw [byteIndex_eq, wordBase_eq, BitVec.toNat_add, BitVec.toNat_ofNat]
  omega

/-! ## Reads after writes (R31 to R33) -/

/-- R31: a word read after a word write. -/
theorem readWord_writeWord (s : State) (a b v : Word) (h : s.mem.wf) :
    readWord (writeWord a v s) b = if a.extractLsb' 2 18 = b.extractLsb' 2 18 then v else readWord s b := by
  split
  case isTrue hab => exact readWord_writeWord_same s a b v h ((wordBase_eq_iff a b).2 hab).symm
  case isFalse hab => exact readWord_writeWord_other s a b v fun e => hab ((wordBase_eq_iff a b).1 e.symm)

/-- R32: a byte read after a byte write. -/
theorem readByte_writeByte (s : State) (a b : Word) (v : Byte) (h : s.mem.wf) :
    readByte (writeByte a v s) b = if a.extractLsb' 0 20 = b.extractLsb' 0 20 then v else readByte s b := by
  split
  case isTrue hab => exact readByte_writeByte_same s a b v h ((byteIndex_eq_iff a b).2 hab).symm
  case isFalse hab => exact readByte_writeByte_other s a b v fun e => hab ((byteIndex_eq_iff a b).1 e.symm)

/-- R33: the byte `k` above an aligned address, as memory holds it. -/
theorem readByte_add_of_aligned (s : State) {a : Word} (h : a &&& 3#32 = 0#32) {k : Nat} (hk : k < 4) :
    readByte s (a + BitVec.ofNat 32 k) = s.mem.byteAt (wordBase a + k) := by
  rw [readByte, byteIndex_add_of_aligned h hk]

/-- R33: a word read is made of the four byte reads from its aligned address up. -/
theorem readWord_eq_wordOfBytes (s : State) {a : Word} (h : a &&& 3#32 = 0#32) :
    readWord s a = wordOfBytes s.cfg.byteOrder (readByte s a) (readByte s (a + 1#32)) (readByte s (a + 2#32))
      (readByte s (a + 3#32)) := by
  have lane : ∀ k < 4, readByte s (a + BitVec.ofNat 32 k) = s.mem.byteAt (wordBase a + k) :=
    fun k hk => readByte_add_of_aligned s h hk
  have lane0 : readByte s a = s.mem.byteAt (wordBase a) := by simpa using lane 0 (by decide)
  rw [lane0, lane 1 (by decide), lane 2 (by decide), lane 3 (by decide)]
  rfl

/-- R33: the byte `k` above an aligned address after a word write there is byte `k` of the word. -/
theorem readByte_writeWord_lane (s : State) {a : Word} (v : Word) (hm : s.mem.wf) (h : a &&& 3#32 = 0#32) {k : Nat}
    (hk : k < 4) : readByte (writeWord a v s) (a + BitVec.ofNat 32 k) = byteOfWord s.cfg.byteOrder v k := by
  rw [readByte_add_of_aligned _ h hk]
  exact byteAt_putWord_lane _ v hm (wordBase_lt a) k hk

/-- Settles O31: an access uses its address by its word or byte index only, and two indices are equal exactly when the address bits are. -/
theorem accessesWrapAndReadBackWhatWasWritten : Obligations.AccessesWrapAndReadBackWhatWasWritten := by
  intro s hm
  have wordWrap (a : Word) : wordBase (a &&& 0x000FFFFC#32) = wordBase a := wordBase_and_pcMask a
  refine ⟨fun a => ⟨?_, ?_⟩, fun a v => ?_, fun a v => ?_, fun a b v => readWord_writeWord s a b v hm,
    fun a b v => readByte_writeByte s a b v hm⟩
  · rw [readWord, readWord, wordWrap]
  · rw [readByte, readByte, byteIndex_and_byteMask]
  · rw [writeWord, writeWord, wordWrap]
  · rw [writeByte, writeByte, byteIndex_and_byteMask]

/-- Settles O32: the bytes of an aligned word are its lanes, in either byte order. -/
theorem wordAndByteViewsAreOneStorage : Obligations.WordAndByteViewsAreOneStorage := by
  refine ⟨fun s a ha ho => ?_, fun s a ha ho => ?_, fun s a v k hm ha hk => ?_⟩
  · rw [readWord_eq_wordOfBytes s ha, ho]; rfl
  · rw [readWord_eq_wordOfBytes s ha, ho]; rfl
  · rw [readByte_writeWord_lane s v hm ha hk]
    cases s.cfg.byteOrder <;> rfl

/-! ## The alignment check (R35, R36, R151) -/

/-- No instruction blocks or is refused: one that raises a fatal condition also answers a next state. -/
theorem exec_next (i : Instr) (s : State) : ∃ t, exec i s = .next t := by
  cases i
  case fetch | store | plusStore | hwio =>
    simp only [exec, execFetch, execStore, execPlusStore, execHwio]
    split_ifs <;> exact ⟨_, rfl⟩
  all_goals exact ⟨_, rfl⟩

/-- R153: a fatal condition raised while popping some of the cells `popped` leaves the halted state it should. -/
theorem raiseFatal_haltsWith (s : State) (c : HaltCause) (v : Word) {cells popped : List Word} (h : cells ⊆ popped) :
    haltsWith s (raiseFatal c v cells s) c v popped :=
  ⟨rfl, rfl, rfl, rfl, rfl, rfl, fun a _ hout =>
    readByte_raiseFatal_other s c v a cells fun b hb => hout b (h hb)⟩

/-- R151: an instruction that raises the misalignment condition was popping no cell but the top two. -/
theorem exec_misaligned_haltsWith {i : Instr} {s t : State} (hi : i = .fetch ∨ i = .store ∨ i = .plusStore)
    (hm : misaligned (topD s) = true) (h : exec i s = .next t) :
    haltsWith s t .misalignedWordAccess (topD s) [s.dsp, s.dsp + 4#32] := by
  rcases hi with rfl | rfl | rfl
  · obtain ⟨-, rfl⟩ := (exec_fetch_cases h).resolve_right (by simp [hm])
    exact raiseFatal_haltsWith s _ _ (by simp)
  · obtain ⟨-, rfl⟩ := (exec_store_cases h).resolve_right (by simp [hm])
    exact raiseFatal_haltsWith s _ _ (List.Subset.refl _)
  · obtain ⟨-, rfl⟩ := (exec_plusStore_cases h).resolve_right (by simp [hm])
    exact raiseFatal_haltsWith s _ _ (List.Subset.refl _)

/-- Settles O30: the three ways an instruction ends (`exec_cases`), told apart by the instruction and the alignment of the top cell. -/
theorem onlyThreePrimitivesCheckAlignment : Obligations.OnlyThreePrimitivesCheckAlignment := by
  intro i s hs
  obtain ⟨t, ht⟩ := exec_next i s
  refine ⟨fun hi => ⟨fun hbits => ⟨t, ht, exec_misaligned_haltsWith hi ?_ ht⟩, fun hbits => ⟨t, ht, ?_⟩⟩,
    fun hf hst hp => ⟨t, ht, fun hh => ?_⟩⟩
  · exact Bool.eq_true_of_not_eq_false fun hm => hbits ((misaligned_eq_false_iff _).1 hm)
  · have hm : misaligned (topD s) = false := (misaligned_eq_false_iff _).2 hbits
    rcases exec_cases ht with ⟨-, -, hm', -⟩ | ⟨-, rfl, -⟩ | ⟨k, -, -⟩
    · simp [hm] at hm'
    · simp at hi
    · rw [k.halted, hs]
  · rcases exec_cases ht with ⟨-, -, -, hi⟩ | ⟨rfl, hi, -⟩ | ⟨k, -, -⟩
    · simp [hf, hst, hp] at hi
    · exact ⟨rfl, hi⟩
    · simp [k.halted, hs] at hh

/-! ## A store ahead of the fetch (R42, R44) -/

/-- R91: `!` to an aligned address. -/
theorem exec_store_of_aligned {s : State} (h : misaligned (topD s) = false) :
    exec .store s = .next (writeWord (topD s) (secondD s) (dropD (dropD s))) := by
  simp [exec, execStore, h]

/-- R70: counting the completed instruction leaves memory as it is. -/
@[simp] theorem readWord_countCycle (s : State) (a : Word) : readWord (countCycle s) a = readWord s a := by
  simp [readWord]

@[simp] theorem topD_advancePc (s : State) : topD (advancePc s) = topD s := rfl

/-- Settles O33: the store runs with `pc` already advanced, so it writes the very word that `pc` then names. -/
theorem storeIsSeenByTheNextFetch : Obligations.StoreIsSeenByTheNextFetch := by
  intro s hs hwf hdec haligned hnext
  have hstore := exec_store_of_aligned (s := advancePc s) (decide_eq_false (not_not_intro haligned))
  have hcell : wordBase ((s.pc + 4#32) &&& pcMask) = wordBase (topD s) := by
    rw [← wordBase_and_pcMask (topD s)]; exact congrArg wordBase hnext.symm
  refine ⟨_, step_of_decoded hs hdec hstore, ?_⟩
  rw [finishStep_of_running (by simpa using hs)]
  refine ⟨by simpa using hs, by simp [pcMask], ?_⟩
  rw [readWord_countCycle]
  exact readWord_writeWord_same _ _ _ _ hwf (by simpa using hcell)

/-! ## How far the stack pointers move (R37, R39) -/

@[simp] theorem binaryOp_dsp (f : Word → Word → Word) (s : State) : (binaryOp f s).dsp = s.dsp + 4#32 := by
  simp [binaryOp]

@[simp] theorem unaryOp_dsp (f : Word → Word) (s : State) : (unaryOp f s).dsp = s.dsp := by
  simp [unaryOp]

@[simp] theorem hwioGetKey_dsp (s : State) : (hwioGetKey s).dsp = s.dsp - 4#32 := by
  simp [hwioGetKey]

/-- Settles O28: by cases on the instruction; the four that can halt and the two that can branch are read off the cases of their
meanings, and a fatal condition ends halted. A move down by 4 is taken as adding -4, so that the moves of several cells add up. -/
theorem stackPointersMoveByTheStackEffect : Obligations.StackPointersMoveByTheStackEffect := by
  intro i s t h _ ht
  cases i
  case fetch =>
    rcases exec_fetch_cases h with ⟨-, rfl⟩ | ⟨-, rfl⟩
    · simp at ht
    · simp [dataPops, dataPushes, returnPops, returnPushes]
  case store =>
    rcases exec_store_cases h with ⟨-, rfl⟩ | ⟨-, rfl⟩
    · simp at ht
    · simp [dataPops, dataPushes, returnPops, returnPushes, BitVec.add_assoc]
  case plusStore =>
    rcases exec_plusStore_cases h with ⟨-, rfl⟩ | ⟨-, rfl⟩
    · simp at ht
    · simp [dataPops, dataPushes, returnPops, returnPushes, BitVec.add_assoc]
  case hwio =>
    rcases exec_hwio_cases h with ⟨hc, rfl⟩ | ⟨hc, rfl⟩ | ⟨hc, rfl⟩ | ⟨-, -, -, rfl⟩
    · simp [dataPops, dataPushes, returnPops, returnPushes, hc]
    · simp [dataPops, dataPushes, returnPops, returnPushes, hc, BitVec.add_assoc]
    · simp [dataPops, dataPushes, returnPops, returnPushes, hc, BitVec.add_assoc]
    · simp at ht
  case bz =>
    rcases exec_bz_cases h with ⟨-, rfl⟩ | ⟨-, rfl⟩ <;> simp [dataPops, dataPushes, returnPops, returnPushes]
  case skipIfZero =>
    rcases exec_skipIfZero_cases h with ⟨-, rfl⟩ | ⟨-, rfl⟩ <;> simp [dataPops, dataPushes, returnPops, returnPushes]
  all_goals
    cases h
    simp [dataPops, dataPushes, returnPops, returnPushes, BitVec.sub_eq_add_neg, BitVec.add_assoc]

end Sys2Proof.Machine

/-! # The instruction encoding (30_encoding.md) -/

namespace Sys2Proof

/-! ## The rows of the decoder (R55) -/

section
variable {codes : List Byte} {w : Word}

/-- Every word falls in one row of R55. -/
theorem classOf_cases (w : Word) :
    (classOf w).toNat ≤ 7 ∨ classOf w = 8#4 ∨ classOf w = 9#4 ∨ classOf w = 10#4 ∨
      (11 ≤ (classOf w).toNat ∧ (classOf w).toNat ≤ 14) ∨ classOf w = 15#4 := by
  simp only [← BitVec.toNat_inj, BitVec.toNat_ofNat]
  omega

theorem decodeWord_of_litClass (h : (classOf w).toNat ≤ 7) : decodeWord codes w = .ok (.lit (imm31Of w)) :=
  if_pos h

theorem decodeWord_of_callClass (h : classOf w = 8#4) : decodeWord codes w = .ok (.call (off28Of w)) := by
  simp [decodeWord, h]

theorem decodeWord_of_braClass (h : classOf w = 9#4) : decodeWord codes w = .ok (.bra (off28Of w)) := by
  simp [decodeWord, h]

theorem decodeWord_of_bzClass (h : classOf w = 10#4) : decodeWord codes w = .ok (.bz (off28Of w)) := by
  simp [decodeWord, h]

theorem decodeWord_of_reservedClass (h : 11 ≤ (classOf w).toNat ∧ (classOf w).toNat ≤ 14) :
    decodeWord codes w = .error (.reservedClass w) := by
  obtain ⟨hlo, hhi⟩ := h
  have hne : ∀ c : BitVec 4, c.toNat < 11 ∨ 14 < c.toNat → classOf w ≠ c := by rintro _ hc rfl; omega
  simp [decodeWord, hne, show ¬ (classOf w).toNat ≤ 7 by omega]

theorem decodeWord_of_assigned {i : Instr} (h : classOf w = 15#4) (hp : primOfCode codes (codeOf w) = some i) :
    decodeWord codes w = .ok i := by
  simp [decodeWord, h, hp]

theorem decodeWord_of_unassigned (h : classOf w = 15#4) (hp : codeOf w ∉ codes) :
    decodeWord codes w = .error (.reservedPrimitive (codeOf w)) := by
  simp [decodeWord, h, primOfCode_of_not_mem hp]

/-- The rows read backwards: how a word comes to decode to an instruction. -/
theorem decodeWord_eq_ok_cases {i : Instr} (h : decodeWord codes w = .ok i) :
    ((classOf w).toNat ≤ 7 ∧ i = .lit (imm31Of w)) ∨ (classOf w = 8#4 ∧ i = .call (off28Of w)) ∨
      (classOf w = 9#4 ∧ i = .bra (off28Of w)) ∨ (classOf w = 10#4 ∧ i = .bz (off28Of w)) ∨
      (classOf w = 15#4 ∧ primOfCode codes (codeOf w) = some i) := by
  rcases classOf_cases w with hc | hc | hc | hc | hc | hc
  · rw [decodeWord_of_litClass hc] at h; cases h; exact .inl ⟨hc, rfl⟩
  · rw [decodeWord_of_callClass hc] at h; cases h; exact .inr (.inl ⟨hc, rfl⟩)
  · rw [decodeWord_of_braClass hc] at h; cases h; exact .inr (.inr (.inl ⟨hc, rfl⟩))
  · rw [decodeWord_of_bzClass hc] at h; cases h; exact .inr (.inr (.inr (.inl ⟨hc, rfl⟩)))
  · rw [decodeWord_of_reservedClass hc] at h; cases h
  · cases hp : primOfCode codes (codeOf w) with
    | some j => rw [decodeWord_of_assigned hc hp] at h; cases h; exact .inr (.inr (.inr (.inr ⟨hc, rfl⟩)))
    | none => simp [decodeWord, hc, hp] at h

/-! ## Which words decode to an instruction (R52 to R56) -/

/-- R52: the one word of a literal. -/
theorem eq_encode_lit_iff (imm : BitVec 31) :
    w = encode codes (.lit imm) ↔ (classOf w).toNat ≤ 7 ∧ imm31Of w = imm := by
  have := imm.isLt
  rw [← BitVec.toNat_inj, ← BitVec.toNat_inj, encode_lit_toNat, classOf_toNat, imm31Of_toNat]
  omega

/-- R53: the one word with a class and an offset. -/
theorem eq_classWord_iff (c : BitVec 4) (off : BitVec 28) : w = c ++ off ↔ classOf w = c ∧ off28Of w = off := by
  have := off.isLt
  have hw : (c ++ off : Word).toNat = c.toNat * 2 ^ 28 + off.toNat := classWord_toNat c off
  rw [← BitVec.toNat_inj, hw, classOf_eq_iff, ← BitVec.toNat_inj, off28Of_toNat]
  omega

/-- R52, R53: an instruction with an operand has one word. -/
theorem decodeWord_eq_ok_iff_of_operand {i : Instr} (hi : i.primNumber = none) :
    decodeWord codes w = .ok i ↔ w = encode codes i := by
  constructor
  · intro h
    rcases decodeWord_eq_ok_cases h with ⟨hc, rfl⟩ | ⟨hc, rfl⟩ | ⟨hc, rfl⟩ | ⟨hc, rfl⟩ | ⟨-, hp⟩
    · exact (eq_encode_lit_iff _).2 ⟨hc, rfl⟩
    · exact (eq_classWord_iff _ _).2 ⟨hc, rfl⟩
    · exact (eq_classWord_iff _ _).2 ⟨hc, rfl⟩
    · exact (eq_classWord_iff _ _).2 ⟨hc, rfl⟩
    · obtain ⟨k, hk, -, -⟩ := (primOfCode_eq_some_iff _ _ _).1 hp
      simp [hi] at hk
  · intro h
    cases i
    case lit imm =>
      obtain ⟨hc, rfl⟩ := (eq_encode_lit_iff imm).1 h
      exact decodeWord_of_litClass hc
    case call off =>
      obtain ⟨hc, rfl⟩ := (eq_classWord_iff _ off).1 h
      exact decodeWord_of_callClass hc
    case bra off =>
      obtain ⟨hc, rfl⟩ := (eq_classWord_iff _ off).1 h
      exact decodeWord_of_braClass hc
    case bz off =>
      obtain ⟨hc, rfl⟩ := (eq_classWord_iff _ off).1 h
      exact decodeWord_of_bzClass hc
    all_goals cases hi

/-- R54, R56: a word decodes to a primitive by its class and its code alone. -/
theorem decodeWord_eq_ok_iff_of_primitive {i : Instr} {k : Nat} (hi : i.primNumber = some k) :
    decodeWord codes w = .ok i ↔
      classOf w = 15#4 ∧ codes[k]? = some (codeOf w) ∧ codeOf w ∉ codes.take k := by
  have hprim : primOfCode codes (codeOf w) = some i ↔ codes[k]? = some (codeOf w) ∧ codeOf w ∉ codes.take k := by
    simp [primOfCode_eq_some_iff, hi]
  rw [← hprim]
  constructor
  · intro h
    rcases decodeWord_eq_ok_cases h with ⟨-, rfl⟩ | ⟨-, rfl⟩ | ⟨-, rfl⟩ | ⟨-, rfl⟩ | h
    case inr.inr.inr.inr => exact h
    all_goals cases hi
  · exact fun ⟨hc, hp⟩ => decodeWord_of_assigned hc hp

end

/-! ## Legal codes and well-formed instructions (R5) -/

theorem primCodesWf_iff (codes : List Byte) : primCodesWf codes = true ↔ codes.length = numPrims ∧ codes.Nodup := by
  simp [primCodesWf]

theorem not_mem_take_of_nodup {codes : List Byte} (h : codes.Nodup) {k : Nat} {c : Byte} (hk : codes[k]? = some c) :
    c ∉ codes.take k := by
  intro hmem
  have hdrop : c ∈ codes.drop k := List.mem_of_getElem? (i := 0) (by simpa using hk)
  exact List.disjoint_take_drop h le_rfl hmem hdrop

/-- Every primitive has a code. -/
theorem getElem?_eq_some_getD {codes : List Byte} (h : primCodesWf codes = true) {i : Instr} {k : Nat}
    (hi : i.primNumber = some k) : codes[k]? = some (codes.getD k 0#8) := by
  have hlt : k < codes.length := ((primCodesWf_iff codes).1 h).1 ▸ primNumber_lt hi
  simp [List.getD_eq_getElem?_getD, hlt]

theorem wf_of_operand (codes : List Byte) {i : Instr} (hi : i.primNumber = none) : i.wf codes = true := by
  simp [Instr.wf, hi]

theorem wf_iff_of_primitive (codes : List Byte) {i : Instr} {k : Nat} (hi : i.primNumber = some k) :
    i.wf codes = true ↔ ∃ c, codes[k]? = some c ∧ c ∉ codes.take k := by
  cases hk : codes[k]? <;> simp [Instr.wf, hi, hk]

/-- Under legal codes the first position of a code is its only one. -/
theorem decodeWord_eq_ok_iff_of_primCodesWf {codes : List Byte} (h : primCodesWf codes = true) {w : Word} {i : Instr}
    {k : Nat} (hi : i.primNumber = some k) :
    decodeWord codes w = .ok i ↔ classOf w = 15#4 ∧ codes[k]? = some (codeOf w) := by
  obtain ⟨-, hnodup⟩ := (primCodesWf_iff codes).1 h
  rw [decodeWord_eq_ok_iff_of_primitive hi]
  exact ⟨fun ⟨hc, hk, _⟩ => ⟨hc, hk⟩, fun ⟨hc, hk⟩ => ⟨hc, hk, not_mem_take_of_nodup hnodup hk⟩⟩

/-! ## The canonical word and its significant bits (R54) -/

@[simp] theorem classOf_primWord (codes : List Byte) (k : Nat) : classOf (primWord codes k) = 15#4 := by
  have := (codes.getD k 0#8).isLt
  rw [classOf_eq_iff, primWord_toNat, BitVec.toNat_ofNat]
  omega

@[simp] theorem codeOf_primWord (codes : List Byte) (k : Nat) : codeOf (primWord codes k) = codes.getD k 0#8 := by
  have := (codes.getD k 0#8).isLt
  rw [← BitVec.toNat_inj, codeOf_toNat, primWord_toNat]
  omega

/-- The significant bits of a primitive hold its class and its code. -/
theorem and_primMask (w : Word) :
    w &&& 0xF00000FF#32 = (classOf w).setWidth 32 <<< 28 ||| (codeOf w).setWidth 32 := by
  apply BitVec.eq_of_getLsbD_eq
  intro j hj
  interval_cases j <;> simp [classOf, codeOf]

theorem and_primMask_eq_iff (w v : Word) :
    w &&& 0xF00000FF#32 = v &&& 0xF00000FF#32 ↔ classOf w = classOf v ∧ codeOf w = codeOf v := by
  constructor
  · intro h
    have hfields (u : Word) : classOf (u &&& 0xF00000FF#32) = classOf u ∧ codeOf (u &&& 0xF00000FF#32) = codeOf u := by
      simp only [classOf, codeOf, BitVec.extractLsb'_and]
      exact ⟨BitVec.and_allOnes, BitVec.and_allOnes⟩
    exact ⟨by rw [← (hfields w).1, h, (hfields v).1], by rw [← (hfields w).2, h, (hfields v).2]⟩
  · rintro ⟨hclass, hcode⟩
    rw [and_primMask, and_primMask, hclass, hcode]

theorem significantBits_of_operand {i : Instr} (hi : i.primNumber = none) : significantBits i = BitVec.allOnes 32 := by
  simp [significantBits, hi]

theorem significantBits_of_primitive {i : Instr} {k : Nat} (hi : i.primNumber = some k) :
    significantBits i = 0xF00000FF#32 := by
  simp [significantBits, hi]

/-- Settles O1: an instruction with an operand has its canonical word for its only one; a primitive's canonical word holds class 15 and
the code whose first position is the primitive's. -/
theorem decodeOfEncodeGivesBack : Obligations.DecodeOfEncodeGivesBack := by
  refine ⟨fun codes i hwf => ?_, fun codes i hcodes => ?_⟩
  · cases hi : i.primNumber with
    | none => exact (decodeWord_eq_ok_iff_of_operand hi).2 rfl
    | some k =>
      obtain ⟨c, hk, hfirst⟩ := (wf_iff_of_primitive codes hi).1 hwf
      have hcode : codeOf (primWord codes k) = c := by simp [hk]
      rw [encode_of_primNumber codes hi, decodeWord_eq_ok_iff_of_primitive hi, hcode]
      exact ⟨classOf_primWord codes k, hk, hfirst⟩
  · cases hi : i.primNumber with
    | none => exact wf_of_operand codes hi
    | some k =>
      have hk := getElem?_eq_some_getD hcodes hi
      obtain ⟨-, hnodup⟩ := (primCodesWf_iff codes).1 hcodes
      exact (wf_iff_of_primitive codes hi).2 ⟨_, hk, not_mem_take_of_nodup hnodup hk⟩

/-- Settles O2: all bits of the word count for an instruction with an operand, the class and the code for a primitive. -/
theorem decodesExactlyWhenSignificantBitsMatch : Obligations.DecodesExactlyWhenSignificantBitsMatch := by
  intro codes w i hcodes
  cases hi : i.primNumber with
  | none =>
    rw [decodeWord_eq_ok_iff_of_operand hi, significantBits_of_operand hi, BitVec.and_allOnes, BitVec.and_allOnes]
  | some k =>
    rw [decodeWord_eq_ok_iff_of_primCodesWf hcodes hi, significantBits_of_primitive hi, and_primMask_eq_iff,
      encode_of_primNumber codes hi, classOf_primWord, codeOf_primWord, getElem?_eq_some_getD hcodes hi,
      Option.some_inj, eq_comm (a := codes.getD k 0#8)]

/-- Settles O3: the rows of the decoder, one by one. -/
theorem everyWordFallsInTheRowOfItsClass : Obligations.EveryWordFallsInTheRowOfItsClass := by
  intro codes w hcodes
  exact ⟨decodeWord_of_litClass, decodeWord_of_callClass, decodeWord_of_braClass, decodeWord_of_bzClass,
    decodeWord_of_reservedClass, decodeWord_of_unassigned,
    fun hc i k hi hk => (decodeWord_eq_ok_iff_of_primCodesWf hcodes hi).2 ⟨hc, hk⟩⟩

/-- Settles O4: each word is decoded by evaluation. -/
theorem writtenOutWordsDecode : Obligations.WrittenOutWordsDecode := by
  unfold Obligations.WrittenOutWordsDecode
  decide

end Sys2Proof

namespace Sys2Proof.Machine

open Sys2Proof.Claims

/-! ## Literals (R52) -/

/-- R52: the words of the literals are those whose bit 31 is clear. -/
theorem classOf_toNat_le_seven_iff (w : Word) : (classOf w).toNat ≤ 7 ↔ w.getLsbD 31 = false := by
  have hmsb : w.getLsbD 31 = decide (2 ^ 31 ≤ w.toNat) := BitVec.msb_eq_decide w
  rw [classOf_toNat, hmsb, decide_eq_false_iff_not]
  omega

theorem getLsbD_imm31Of (w : Word) {k : Nat} (hk : k < 31) : (imm31Of w).getLsbD k = w.getLsbD k := by
  simp [imm31Of, hk]

theorem getLsbD_literalValue (imm : BitVec 31) {k : Nat} (hk : k < 31) :
    (literalValue imm).getLsbD k = imm.getLsbD k := by
  simp [literalValue, BitVec.getElem_signExtend, hk, show k < 32 by omega]

/-- R52: bit 31 of the value is a copy of bit 30. -/
theorem getLsbD_literalValue_top (imm : BitVec 31) : (literalValue imm).getLsbD 31 = imm.getLsbD 30 := by
  simp [literalValue, BitVec.getElem_signExtend, BitVec.msb_eq_getLsbD_last]

/-- R52: a pattern with equal top bits is the value of its own low 31 bits. -/
theorem literalValue_imm31Of {v : Word} (h : v.getLsbD 31 = v.getLsbD 30) : literalValue (imm31Of v) = v := by
  apply BitVec.eq_of_getLsbD_eq
  intro k hk
  rcases Nat.lt_succ_iff_lt_or_eq.1 hk with hk | rfl
  · rw [getLsbD_literalValue _ hk, getLsbD_imm31Of v hk]
  · rw [getLsbD_literalValue_top, getLsbD_imm31Of v (by decide), h]

theorem literalValue_toInt (imm : BitVec 31) : (literalValue imm).toInt = imm.toInt :=
  BitVec.toInt_signExtend_of_le (by decide)

/-- Settles O5: the value copies the literal's bits and its bit 30, and keeps its signed number. -/
theorem literalsAreTheWordsWithEqualTopBits : Obligations.LiteralsAreTheWordsWithEqualTopBits := by
  refine ⟨fun v => ⟨?_, fun h => ⟨imm31Of v, literalValue_imm31Of h⟩⟩, fun imm => ?_, fun w hw => ?_, by decide⟩
  · rintro ⟨imm, rfl⟩
    rw [getLsbD_literalValue_top, getLsbD_literalValue _ (by decide)]
  · have hlo := BitVec.le_two_mul_toInt (x := imm)
    have hhi := BitVec.two_mul_toInt_lt (x := imm)
    rw [literalValue_toInt]
    omega
  · refine ⟨imm31Of w, decodeWord_of_litClass ((classOf_toNat_le_seven_iff w).2 hw), ?_, fun k hk => ?_⟩
    · rw [getLsbD_literalValue_top, getLsbD_imm31Of w (by decide)]
    · rw [getLsbD_literalValue _ hk, getLsbD_imm31Of w hk]

/-! ## Relative targets (R53) -/

/-- R11: two masked addresses are equal when their bits 19 to 2 are, as numbers. -/
theorem and_pcMask_eq_iff (a b : Word) :
    a &&& pcMask = b &&& pcMask ↔ a.toNat / 4 % 262144 = b.toNat / 4 % 262144 := by
  rw [← BitVec.toNat_inj, toNat_and_pcMask, toNat_and_pcMask]
  omega

theorem relativeTarget_toNat (pc : Word) (off : BitVec 28) :
    (relativeTarget pc off).toNat = 4 * ((pc.toNat + off.toNat) / 4 % 262144) := by
  have := off.isLt
  rw [relativeTarget, toNat_and_pcMask, BitVec.toNat_add, BitVec.toNat_setWidth]
  omega

/-- R53: the sign of the offset lies above the mask. -/
theorem relativeTarget_eq_signExtend (pc : Word) (off : BitVec 28) :
    relativeTarget pc off = (pc + off.signExtend 32) &&& pcMask := by
  have := off.isLt
  rw [relativeTarget, and_pcMask_eq_iff, BitVec.toNat_add, BitVec.toNat_add, BitVec.toNat_signExtend,
    BitVec.toNat_setWidth]
  split <;> omega

/-- R53: from an aligned `pc` only bits 19 to 2 of the offset count. -/
theorem relativeTarget_congr {pc : Word} {off off' : BitVec 28} (hpc : pc &&& 3#32 = 0#32)
    (h : off.extractLsb' 2 18 = off'.extractLsb' 2 18) : relativeTarget pc off = relativeTarget pc off' := by
  have hbits (o : BitVec 28) : (o.extractLsb' 2 18).toNat = o.toNat / 4 % 262144 := by
    simp [BitVec.extractLsb'_toNat, Nat.shiftRight_eq_div_pow]
  have hnat := congrArg BitVec.toNat h
  have hal := (aligned_iff pc).1 hpc
  rw [hbits, hbits] at hnat
  rw [← BitVec.toNat_inj, relativeTarget_toNat, relativeTarget_toNat]
  omega

/-- R53: the difference, cut to 28 bits, reaches an aligned target in range. -/
theorem relativeTarget_sub (pc : Word) {target : Word} (h : target &&& pcMask = target) :
    relativeTarget pc ((target - pc).setWidth 28) = target := by
  have htarget := congrArg BitVec.toNat h
  have := pc.isLt
  rw [toNat_and_pcMask] at htarget
  rw [← BitVec.toNat_inj, relativeTarget_toNat, BitVec.toNat_setWidth, BitVec.toNat_sub]
  omega

/-- Settles O6: the mask drops the bits in which the two extensions differ, and the target depends on its number modulo 2^20. -/
theorem relativeTargetDependsOnOffsetBits19To2 : Obligations.RelativeTargetDependsOnOffsetBits19To2 :=
  ⟨fun _ _ => rfl, relativeTarget_eq_signExtend, fun _ _ _ => relativeTarget_congr,
    fun a _ h => relativeTarget_sub (a + 4#32) h⟩

/-! ## Reserved words (R57, R58) -/

/-- R56: the default codes are the numbers below 31. -/
theorem mem_defaultPrimCodes_iff (c : Byte) : c ∈ defaultPrimCodes ↔ c.toNat < 31 := by
  have hcodes : defaultPrimCodes = (List.range 31).map (BitVec.ofNat 8) := by decide
  rw [hcodes, List.mem_map]
  constructor
  · rintro ⟨n, hn, rfl⟩
    have := List.mem_range.1 hn
    rw [BitVec.toNat_ofNat]; omega
  · exact fun h => ⟨c.toNat, List.mem_range.2 h, by simp⟩

/-- R153: a fatal condition that pops nothing leaves of the fetched state what it would have left before the advance of `pc`. -/
theorem raiseFatal_advancePc_haltsWith (s : State) (c : HaltCause) (v : Word) :
    haltsWith s (raiseFatal c v [] (advancePc s)) c v [] :=
  raiseFatal_haltsWith (advancePc s) c v (List.Subset.refl [])

/-- Settles O35: the decoder rejects the word by name, and the step raises the fatal condition of that name. -/
theorem reservedWordsHaltTheStep : Obligations.ReservedWordsHaltTheStep := by
  refine ⟨fun s hs hlo hhi => ?_, fun s hs hclass hcode => ?_, fun c => ?_⟩
  · exact ⟨_, step_of_reject hs (decodeWord_of_reservedClass ⟨hlo, hhi⟩), raiseFatal_advancePc_haltsWith s _ _⟩
  · exact ⟨_, step_of_reject hs (decodeWord_of_unassigned hclass hcode), raiseFatal_advancePc_haltsWith s _ _⟩
  · rw [mem_defaultPrimCodes_iff]; omega

end Sys2Proof.Machine

/-! # The step, LIT and the control instructions (40_step_literal_control.md) -/

namespace Sys2Proof.Machine

open Sys2Proof.Claims

/-! ## The frames (R39, R71 to R74, R140 to R143) -/

theorem Keeps.sameSpecial {s t : State} (k : Keeps s t) : sameSpecial s t :=
  ⟨k.cycles, k.signal, k.halted, k.haltCause, k.haltInfo, k.cfg⟩

/-- Only `@`, `!`, `+!` and `$HWIO` can raise a fatal condition; every other instruction keeps `Keeps`. -/
theorem exec_keeps {i : Instr} {s t : State} (h : exec i s = .next t)
    (hi : i ≠ .fetch ∧ i ≠ .store ∧ i ≠ .plusStore ∧ i ≠ .hwio) : Keeps s t := by
  obtain ⟨hf, hs, hp, hw⟩ := hi
  rcases exec_cases h with ⟨-, -, -, hi⟩ | ⟨-, hi, -⟩ | ⟨k, -, -⟩
  · simp [hf, hs, hp] at hi
  · exact absurd hi hw
  · exact k

theorem sameBytesOutside_pushD (s : State) (v : Word) : sameBytesOutside [s.dsp - 4#32] s (pushD v s) :=
  fun a ha => readByte_pushD_other s v a (ha _ (List.mem_singleton.2 rfl))

theorem sameBytesOutside_pushR (s : State) (v : Word) : sameBytesOutside [s.rsp - 4#32] s (pushR v s) :=
  fun a ha => readByte_pushR_other s v a (ha _ (List.mem_singleton.2 rfl))

theorem sameBytesOutside_of_mem_eq {s t : State} (h : t.mem = s.mem) (cells : List Word) :
    sameBytesOutside cells s t :=
  fun a _ => congrArg (Memory.byteAt · (byteIndex a)) h

/-- Settles O26: each meaning is at most one push, after pops and writes of `pc` that touch no byte. -/
theorem controlAndTransferFrames : Obligations.ControlAndTransferFrames := by
  refine ⟨fun imm s t h => ?lit, fun off s t h => ?call, fun off s t h => ?bra, fun off s t h => ?bz,
    fun s t h => ?skip, fun s t h => ?semi, fun s t h => ?toR, fun s t h => ?fromR⟩
  all_goals have special : sameSpecial s t := (exec_keeps h (by simp)).sameSpecial
  case lit => cases h; exact ⟨rfl, rfl, special, ⟨rfl, rfl, rfl⟩, sameBytesOutside_pushD s _⟩
  case call => cases h; exact ⟨rfl, special, ⟨rfl, rfl, rfl⟩, sameBytesOutside_pushR s _⟩
  case bra => cases h; exact ⟨rfl, rfl, special, ⟨rfl, rfl, rfl⟩, sameBytesOutside_of_mem_eq rfl []⟩
  case bz =>
    rcases exec_bz_cases h with ⟨-, rfl⟩ | ⟨-, rfl⟩ <;>
      exact ⟨rfl, special, ⟨rfl, rfl, rfl⟩, sameBytesOutside_of_mem_eq rfl []⟩
  case skip =>
    rcases exec_skipIfZero_cases h with ⟨-, rfl⟩ | ⟨-, rfl⟩ <;>
      exact ⟨rfl, special, ⟨rfl, rfl, rfl⟩, sameBytesOutside_of_mem_eq rfl []⟩
  case semi => cases h; exact ⟨rfl, special, ⟨rfl, rfl, rfl⟩, sameBytesOutside_of_mem_eq rfl []⟩
  case toR => cases h; exact ⟨rfl, special, ⟨rfl, rfl, rfl⟩, sameBytesOutside_pushR (dropD s) _⟩
  case fromR => cases h; exact ⟨rfl, special, ⟨rfl, rfl, rfl⟩, sameBytesOutside_pushD (dropR s) _⟩

/-! ## The whole effects (R71 to R74) -/

/-- R53: a relative target is masked already. -/
theorem writePc_relativeTarget (pc : Word) (off : BitVec 28) (s : State) :
    writePc (relativeTarget pc off) s = { s with pc := relativeTarget pc off } := by
  simp [writePc, relativeTarget]

theorem exec_call_eq (off : BitVec 28) (s : State) :
    exec (.call off) s = .next { pushR s.pc s with pc := relativeTarget s.pc off } :=
  congrArg _ (writePc_relativeTarget s.pc off (pushR s.pc s))

theorem exec_bra_eq (off : BitVec 28) (s : State) :
    exec (.bra off) s = .next { s with pc := relativeTarget s.pc off } :=
  congrArg _ (writePc_relativeTarget s.pc off s)

theorem exec_bz_of_zero (off : BitVec 28) {s : State} (h : topD s = 0#32) :
    exec (.bz off) s = .next { dropD s with pc := relativeTarget s.pc off } := by
  rw [← writePc_relativeTarget]
  simp [exec, execBz, isZero, h]

theorem exec_bz_of_ne_zero (off : BitVec 28) {s : State} (h : topD s ≠ 0#32) :
    exec (.bz off) s = .next (dropD s) := by
  simp [exec, execBz, isZero, h]

/-- Settles O7: a clear bit 31 is a class of at most 7; the effect is the push itself. -/
theorem litPushesItsSignExtendedLiteral : Obligations.LitPushesItsSignExtendedLiteral :=
  ⟨fun _ w hw => decodeWord_of_litClass ((classOf_toNat_le_seven_iff w).2 hw), fun _ _ => rfl⟩

/-- Settles O8: the rows of classes 8, 9, 10, and the whole effect of each. -/
theorem relativeClassesTransferControl : Obligations.RelativeClassesTransferControl :=
  ⟨fun _ _ => decodeWord_of_callClass, fun _ _ => decodeWord_of_braClass, fun _ _ => decodeWord_of_bzClass,
    exec_call_eq, exec_bra_eq, fun off _ h => exec_bz_of_zero off h, fun off _ h => exec_bz_of_ne_zero off h⟩

/-! ## The step (R70, R76, R154) -/

/-- R10: no instruction writes the configuration, not even one that halts. -/
theorem exec_cfg {i : Instr} {s t : State} (h : exec i s = .next t) : t.cfg = s.cfg := by
  rcases exec_cases h with ⟨_, rfl, -⟩ | ⟨rfl, -⟩ | ⟨k, -, -⟩
  · rfl
  · rfl
  · exact k.cfg

theorem countCycle_of_budget_le {s : State} (h : s.cfg.cyclesPerFrame.toNat ≤ (s.cycles + 1#32).toNat) :
    countCycle s = { s with cycles := s.cycles + 1#32 - s.cfg.cyclesPerFrame, signal := s.cfg.frameRate } :=
  if_pos h

theorem countCycle_of_lt_budget {s : State} (h : (s.cycles + 1#32).toNat < s.cfg.cyclesPerFrame.toNat) :
    countCycle s = { s with cycles := s.cycles + 1#32, signal := 0#32 } :=
  if_neg (Nat.not_le.2 h)

/-- R70: a step whose instruction leaves the core running counts it. -/
theorem step_of_running {s u : State} {i : Instr} (h : s.halted = false)
    (hd : decodeWord s.cfg.primCodes (fetchWord s) = .ok i) (he : exec i (advancePc s) = .next u)
    (hu : u.halted = false) : step s = .next (countCycle u) := by
  rw [step_of_decoded h hd he, finishStep_of_running hu]

/-- Settles O34: the three ways of a step, the last told apart by `halted` and the budget. -/
theorem stepFetchesAdvancesRunsAndCounts : Obligations.StepFetchesAdvancesRunsAndCounts := by
  intro s
  refine ⟨step_of_halted, fun hs => ⟨everyWordFallsInTheRowOfItsClass _ _, fun w hd => ?_, fun c hd => ?_,
    fun i u hd he => ?_⟩⟩
  · exact ⟨_, step_of_reject hs hd, raiseFatal_advancePc_haltsWith s _ _⟩
  · exact ⟨_, step_of_reject hs hd, raiseFatal_advancePc_haltsWith s _ _⟩
  · have hcfg : u.cfg = s.cfg := exec_cfg (s := advancePc s) he
    refine ⟨fun hu => ?_, fun hu hle => ?_, fun hu hlt => ?_⟩
    · rw [step_of_decoded hs hd he, finishStep_of_halted hu]
    · rw [step_of_running hs hd he hu, countCycle_of_budget_le (by rwa [hcfg])]
    · rw [step_of_running hs hd he hu, countCycle_of_lt_budget (by rwa [hcfg])]

/-- R76: every step answers a next state, since every instruction does. -/
theorem step_next (s : State) : ∃ t, step s = .next t := by
  cases hs : s.halted with
  | true => exact ⟨_, step_of_halted hs⟩
  | false =>
    cases hd : decodeWord s.cfg.primCodes (fetchWord s) with
    | error r => exact ⟨_, step_of_reject hs hd⟩
    | ok i =>
      obtain ⟨u, he⟩ := exec_next i (advancePc s)
      exact ⟨_, step_of_decoded hs hd he⟩

/-- Settles O37: no meaning and no way of a step ends in a fault or a refusal. -/
theorem everyStepAnswersANextState : Obligations.EveryStepAnswersANextState := ⟨exec_next, step_next⟩

/-! ## A call and its return (R72, R140) -/

/-- The state a step of CALL leaves. -/
def afterCall (off : BitVec 28) (s : State) : State :=
  countCycle { pushR (advancePc s).pc (advancePc s) with pc := relativeTarget (advancePc s).pc off }

/-- The state a step of `;` leaves. -/
def afterReturn (s : State) : State := countCycle (writePc (topR s) (dropR (advancePc s)))

theorem step_of_call {s : State} {off : BitVec 28} (h : s.halted = false)
    (hd : decodeWord s.cfg.primCodes (fetchWord s) = .ok (.call off)) : step s = .next (afterCall off s) :=
  step_of_running h hd (exec_call_eq off (advancePc s)) h

theorem step_of_semi {s : State} (h : s.halted = false) (hd : decodeWord s.cfg.primCodes (fetchWord s) = .ok .semi) :
    step s = .next (afterReturn s) :=
  step_of_running h hd rfl h

/-- The pushed return address does not change the word at a target outside its cell. -/
theorem fetchWord_afterCall {s : State} {off : BitVec 28}
    (h : ¬ inCell (s.rsp - 4#32) (relativeTarget (advancePc s).pc off)) :
    fetchWord (afterCall off s) = readWord s (relativeTarget (advancePc s).pc off) := by
  have hpc : (afterCall off s).pc = relativeTarget (advancePc s).pc off := by simp [afterCall]
  rw [fetchWord, hpc, afterCall, readWord_countCycle]
  exact readWord_pushR_other (advancePc s) _ _ h

/-- The top of the return stack is the address after the CALL. -/
theorem topR_afterCall {s : State} (off : BitVec 28) (h : s.mem.wf = true) :
    topR (afterCall off s) = (advancePc s).pc := by
  have hrsp : (afterCall off s).rsp = s.rsp - 4#32 := by simp [afterCall]
  rw [topR, hrsp, afterCall, readWord_countCycle]
  exact topR_pushR (advancePc s) _ h

theorem runSteps_two {s t u : State} (h : step s = .next t) (h' : step t = .next u) : runSteps 2 s = some u := by
  simp [runSteps, h, h']

/-- Settles O42: the CALL leaves the `;` at the target to be fetched and the return address on top of the return stack. -/
theorem callThenReturnComesBack : Obligations.CallThenReturnComesBack := by
  intro s off hs hm hcall hsemi hout
  have hrun : (afterCall off s).halted = false := by simpa [afterCall] using hs
  have hcfg : (afterCall off s).cfg = s.cfg := by simp [afterCall]
  have hfetch : decodeWord (afterCall off s).cfg.primCodes (fetchWord (afterCall off s)) = .ok .semi := by
    rw [hcfg, fetchWord_afterCall hout]; exact hsemi
  refine ⟨_, runSteps_two (step_of_call hs hcall) (step_of_semi hrun hfetch), ?_, ?_, ?_, ?_⟩
  · simpa [afterReturn] using hrun
  · have hpc : (afterReturn (afterCall off s)).pc = topR (afterCall off s) &&& pcMask := by simp [afterReturn]
    rw [hpc, topR_afterCall off hm]
    exact advancePc_pcInRange s
  · simp [afterReturn, afterCall]
  · simp [afterReturn, afterCall]

end Sys2Proof.Machine

/-! # The memory primitives (41_prim_memory.md) -/

namespace Sys2Proof.Machine

open Sys2Proof.Claims

/-! ## What the primitives pop and write (R90 to R95) -/

/-- R95: a push after a pop writes the cell popped. -/
theorem pushD_dropD (s : State) (v : Word) : pushD v (dropD s) = writeWord s.dsp v s := by
  simp [pushD, dropD]

/-- R95: two pops change nothing but the pointer. -/
theorem dropD_dropD (s : State) : dropD (dropD s) = { s with dsp := s.dsp + 8#32 } := by
  simp [dropD, add_four_four]

/-- R90: `@` from an aligned address. -/
theorem exec_fetch_of_aligned {s : State} (h : misaligned (topD s) = false) :
    exec .fetch s = .next (writeWord s.dsp (readWord s (topD s)) s) := by
  rw [← pushD_dropD]
  simp [exec, execFetch, h]

/-- R94: `+!` to an aligned address. -/
theorem exec_plusStore_of_aligned {s : State} (h : misaligned (topD s) = false) :
    exec .plusStore s = .next (writeWord (topD s) (readWord s (topD s) + secondD s) (dropD (dropD s))) := by
  simp [exec, execPlusStore, h]

/-- R90, R151: `@` from a misaligned address. -/
theorem exec_fetch_of_misaligned {s : State} (h : misaligned (topD s) = true) :
    exec .fetch s = .next (raiseFatal .misalignedWordAccess (topD s) [s.dsp] s) := by
  simp [exec, execFetch, h]

/-- R91, R94, R151: `!` and `+!` to a misaligned address. -/
theorem exec_storing_of_misaligned {s : State} (h : misaligned (topD s) = true) {i : Instr}
    (hi : i ∈ [Instr.store, Instr.plusStore]) :
    exec i s = .next (raiseFatal .misalignedWordAccess (topD s) [s.dsp, s.dsp + 4#32] s) := by
  obtain rfl | rfl : i = .store ∨ i = .plusStore := by simpa using hi
  · simp [exec, execStore, h]
  · simp [exec, execPlusStore, h]

/-- R91, R94: `!` and `+!` to an aligned address write the addressed word after popping two cells. -/
theorem exec_storing_writes_word {s t : State} (h : misaligned (topD s) = false) {i : Instr}
    (hi : i ∈ [Instr.store, Instr.plusStore]) (he : exec i s = .next t) :
    ∃ v, t = writeWord (topD s) v { s with dsp := s.dsp + 8#32 } := by
  rw [← dropD_dropD]
  obtain rfl | rfl : i = .store ∨ i = .plusStore := by simpa using hi
  · rw [exec_store_of_aligned h] at he; cases he; exact ⟨_, rfl⟩
  · rw [exec_plusStore_of_aligned h] at he; cases he; exact ⟨_, rfl⟩

/-- R93: all `C!` does. -/
theorem exec_cStore_eq (s : State) :
    exec .cStore s = .next (writeByte (topD s) ((secondD s).extractLsb' 0 8) { s with dsp := s.dsp + 8#32 }) := by
  rw [← dropD_dropD, ← BitVec.setWidth_eq_extractLsb' (by decide)]; rfl

/-! ## The word accesses (R90, R91, R94) -/

/-- Settles O9: the two branches of the alignment test; a halt leaves memory as it was outside the popped cells. -/
theorem wordPrimitivesAccessAlignedOrHalt : Obligations.WordPrimitivesAccessAlignedOrHalt := by
  refine ⟨by decide, by decide, by decide, fun s haligned => ?aligned, fun s hmisaligned => ?misaligned⟩
  case aligned =>
    have h : misaligned (topD s) = false := decide_eq_false (not_not_intro haligned)
    refine ⟨exec_fetch_of_aligned h, ?_, ?_⟩ <;> rw [← dropD_dropD]
    · exact exec_store_of_aligned h
    · exact exec_plusStore_of_aligned h
  case misaligned =>
    have h : misaligned (topD s) = true := decide_eq_true hmisaligned
    refine ⟨⟨_, exec_fetch_of_misaligned h, raiseFatal_haltsWith s _ _ (List.Subset.refl _)⟩, fun i hi =>
      ⟨_, exec_storing_of_misaligned h hi, raiseFatal_haltsWith s _ _ (List.Subset.refl _), fun htop hsecond => ?_⟩⟩
    exact readWord_raiseFatal_other s _ _ _ _ (List.forall_mem_cons.2 ⟨htop, List.forall_mem_singleton.2 hsecond⟩)

/-! ## The byte accesses (R92, R93) -/

/-- Settles O10: the pops and the push add up to the one write. -/
theorem bytePrimitivesZeroExtendAndTruncate : Obligations.BytePrimitivesZeroExtendAndTruncate :=
  ⟨by decide, by decide, fun s => congrArg _ (pushD_dropD s _), exec_cStore_eq⟩

/-- R33: a byte write replaces its own lane of the containing word and keeps the other lanes. -/
theorem byteOfWord_readWord_writeByte (s : State) (a : Word) (v : Byte) (hm : s.mem.wf) {k : Nat} (hk : k < 4) :
    byteOfWord s.cfg.byteOrder (readWord (writeByte a v s) a) k =
      if k = a.toNat % 4 then v else byteOfWord s.cfg.byteOrder (readWord s a) k := by
  have hindex := byteIndex_eq_wordBase_add a
  rw [readWord, readWord, writeByte_cfg, writeByte_mem, byteOfWord_wordAt _ _ _ _ hk, byteOfWord_wordAt _ _ _ _ hk]
  split
  case isTrue hlane => rw [hlane, ← hindex]; exact byteAt_putByte_same v hm
  case isFalse hlane => exact byteAt_putByte_other _ v (by omega)

/-- Settles O11: `C!` writes the one byte, and a byte is a lane of its word. -/
theorem storedByteShowsInItsLaneOfTheWord : Obligations.StoredByteShowsInItsLaneOfTheWord := by
  intro s t hm he
  rw [exec_cStore_eq] at he
  cases he
  exact ⟨readByte_writeByte_same _ _ _ _ hm rfl, fun k hk => byteOfWord_readWord_writeByte _ _ _ hm hk⟩

/-! ## The frames of the stores (R95) -/

/-- Settles O19: each store is one write after two pops. -/
theorem storingPrimitivesChangeOnlyTheAddressed : Obligations.StoringPrimitivesChangeOnlyTheAddressed := by
  refine ⟨fun i hi s t haligned he => ?word, fun s t he => ?byte⟩
  case word =>
    obtain ⟨v, rfl⟩ := exec_storing_writes_word haligned hi he
    exact ⟨rfl, rfl, rfl, ⟨rfl, rfl, rfl, rfl, rfl, rfl⟩, ⟨rfl, rfl, rfl⟩, fun a ha =>
      readByte_writeWord_other _ _ a v (ha _ (List.mem_singleton.2 rfl))⟩
  case byte =>
    rw [exec_cStore_eq] at he
    cases he
    exact ⟨rfl, rfl, rfl, ⟨rfl, rfl, rfl, rfl, rfl, rfl⟩, ⟨rfl, rfl, rfl⟩, fun a ha =>
      readByte_writeByte_other _ _ a _ ha⟩

end Sys2Proof.Machine

/-! # Arithmetic, logic and zero tests (42_prim_arith_logic.md) -/

namespace Sys2Proof.Machine

open Sys2Proof.Claims

/-! ## The two operand forms (R118, R119) -/

/-- R118: a binary primitive pops two cells and writes one, the second. -/
theorem binaryOp_eq_writeWord (f : Word → Word → Word) (s : State) :
    binaryOp f s = writeWord (s.dsp + 4#32) (f (readWord s (s.dsp + 4#32)) (readWord s s.dsp))
      { s with dsp := s.dsp + 4#32 } :=
  pushD_dropD (dropD s) _

/-- R119: a unary primitive writes the top cell and nothing else. -/
theorem unaryOp_eq_writeWord (f : Word → Word) (s : State) :
    unaryOp f s = writeWord s.dsp (f (readWord s s.dsp)) s :=
  pushD_dropD s _

/-- A primitive that means `binaryOp g` has the result of any `f` equal to `g`. -/
theorem binaryResult_of_binaryOp {word : Word} {i : Instr} {f g : Word → Word → Word}
    (hword : decodeWord defaultPrimCodes word = .ok i) (hexec : ∀ s, exec i s = .next (binaryOp g s))
    (hfg : ∀ a b, g a b = f a b) : binaryResult word i f :=
  ⟨hword, fun s => by rw [hexec, binaryOp_eq_writeWord, hfg]⟩

/-- A primitive that means `unaryOp g` has the result of any `f` equal to `g`. -/
theorem unaryResult_of_unaryOp {word : Word} {i : Instr} {f g : Word → Word}
    (hword : decodeWord defaultPrimCodes word = .ok i) (hexec : ∀ s, exec i s = .next (unaryOp g s))
    (hfg : ∀ a, g a = f a) : unaryResult word i f :=
  ⟨hword, fun s => by rw [hexec, unaryOp_eq_writeWord, hfg]⟩

/-- R118: what every binary primitive means. -/
theorem exec_of_mem_binaryInstrs {i : Instr} (hi : i ∈ binaryInstrs) (s : State) :
    ∃ f, exec i s = .next (binaryOp f s) := by
  simp only [binaryInstrs, List.mem_cons, List.not_mem_nil, or_false] at hi
  rcases hi with rfl | rfl | rfl | rfl | rfl | rfl | rfl <;> exact ⟨_, rfl⟩

/-- R119: what every unary primitive means. -/
theorem exec_of_mem_unaryInstrs {i : Instr} (hi : i ∈ unaryInstrs) (s : State) :
    ∃ f, exec i s = .next (unaryOp f s) := by
  simp only [unaryInstrs, List.mem_cons, List.not_mem_nil, or_false] at hi
  rcases hi with rfl | rfl | rfl | rfl | rfl | rfl | rfl | rfl | rfl <;> exact ⟨_, rfl⟩

/-! ## The frames (R39, R100, R118, R119) -/

theorem sameBytesOutside_writeWord (s : State) (a v : Word) : sameBytesOutside [a] s (writeWord a v s) :=
  fun b hb => readByte_writeWord_other s a b v (hb a (List.mem_singleton.2 rfl))

/-- Settles O17: each binary primitive is one write after the pointer has moved past the top cell. -/
theorem binaryPrimitivesChangeOneCell : Obligations.BinaryPrimitivesChangeOneCell := by
  intro i hi s t h
  obtain ⟨f, hf⟩ := exec_of_mem_binaryInstrs hi s
  rw [hf, binaryOp_eq_writeWord] at h
  cases h
  have htop : wordBase s.dsp ≠ wordBase (s.dsp + 4#32) := (wordBase_add_four_ne s.dsp).symm
  exact ⟨rfl, rfl, rfl, (keeps_writeWord { s with dsp := s.dsp + 4#32 } _ _).sameSpecial, ⟨rfl, rfl, rfl⟩,
    sameBytesOutside_writeWord _ _ _, readWord_writeWord_other _ _ _ _ htop⟩

/-- The frame of an instruction that means one write to the top cell. -/
theorem frame_of_exec_eq_writeWord_top {i : Instr} {s t : State} {v : Word}
    (hi : exec i s = .next (writeWord s.dsp v s)) (h : exec i s = .next t) :
    t.pc = s.pc ∧ t.dsp = s.dsp ∧ t.rsp = s.rsp ∧ sameSpecial s t ∧ sameBridge s t ∧ sameBytesOutside [s.dsp] s t := by
  cases hi.symm.trans h
  exact ⟨rfl, rfl, rfl, (keeps_writeWord s _ _).sameSpecial, ⟨rfl, rfl, rfl⟩, sameBytesOutside_writeWord s _ _⟩

/-- Settles O18: each of them is one write to the top cell. -/
theorem unaryPrimitivesChangeTheTopCell : Obligations.UnaryPrimitivesChangeTheTopCell := by
  refine ⟨fun i hi s t h => ?unary, fun s t h => ?cFetch, fun s t haligned h => ?fetch⟩
  case unary =>
    obtain ⟨f, hf⟩ := exec_of_mem_unaryInstrs hi s
    rw [unaryOp_eq_writeWord] at hf
    exact frame_of_exec_eq_writeWord_top hf h
  case cFetch => exact frame_of_exec_eq_writeWord_top (congrArg _ (pushD_dropD s _)) h
  case fetch => exact frame_of_exec_eq_writeWord_top (exec_fetch_of_aligned haligned) h

/-! ## Addition, subtraction, multiplication and the bitwise operations (R101 to R103, R105 to R107) -/

/-- R103: the word product is the low 32 bits of the product of the numbers. -/
theorem mul_eq_ofNat_mul_toNat (a b : Word) : a * b = BitVec.ofNat 32 (a.toNat * b.toNat) := by
  rw [BitVec.ofNat_mul, BitVec.ofNat_toNat, BitVec.ofNat_toNat, BitVec.setWidth_eq, BitVec.setWidth_eq]

/-- Settles O12: each is a binary primitive; the product is taken on naturals. -/
theorem plusMinusTimesWrap : Obligations.PlusMinusTimesWrap :=
  ⟨binaryResult_of_binaryOp (by decide) (fun _ => rfl) (fun _ _ => rfl),
    binaryResult_of_binaryOp (by decide) (fun _ => rfl) (fun _ _ => rfl),
    binaryResult_of_binaryOp (by decide) (fun _ => rfl) mul_eq_ofNat_mul_toNat⟩

/-- Settles O14: each is a binary primitive. -/
theorem andOrXorAreBitwise : Obligations.AndOrXorAreBitwise :=
  ⟨binaryResult_of_binaryOp (by decide) (fun _ => rfl) (fun _ _ => rfl),
    binaryResult_of_binaryOp (by decide) (fun _ => rfl) (fun _ _ => rfl),
    binaryResult_of_binaryOp (by decide) (fun _ => rfl) (fun _ _ => rfl)⟩

/-! ## Division (R104) -/

theorem quotient_zero (d a : Word) : quotient d a 0#32 = 0#32 := if_pos rfl

theorem quotient_min_neg_one (d : Word) : quotient d 0x80000000#32 0xFFFFFFFF#32 = d := rfl

/-- R104: the one pair excluded is the only one whose quotient does not fit 32 bits. -/
theorem toInt_quotient {a b : Word} (d : Word) (hb : b ≠ 0#32) (hab : ¬ (a = 0x80000000#32 ∧ b = 0xFFFFFFFF#32)) :
    (quotient d a b).toInt = Int.tdiv a.toInt b.toInt := by
  rw [quotient, if_neg hb, if_neg hab, BitVec.toInt_ofInt, ← BitVec.toInt_sdiv]
  exact BitVec.toInt_sdiv_of_ne_or_ne a b (not_and_or.1 hab)

/-- Settles O13: the result is the model's quotient, in its three cases. -/
theorem divideTruncatesTowardZero : Obligations.DivideTruncatesTowardZero := by
  refine ⟨by decide, fun s => ⟨quotient s.cfg.divMinNeg1 (readWord s (s.dsp + 4#32)) (readWord s s.dsp), ?effect,
    fun hb => ?byZero, fun ha hb => ?overflow, toInt_quotient _⟩⟩
  case effect => exact congrArg _ (binaryOp_eq_writeWord _ s)
  case byZero => rw [hb, quotient_zero]
  case overflow => rw [ha, hb, quotient_min_neg_one]

/-! ## The unary operations (R108, R112 to R116) -/

/-- R112: negation is complement and increment. -/
theorem zero_sub_eq_not_add_one (a : Word) : 0#32 - a = ~~~a + 1#32 := by
  rw [BitVec.zero_sub, BitVec.neg_eq_not_add]

/-- R115: the left shift doubles, modulo 2^32. -/
theorem shiftLeft_one_eq_ofNat (a : Word) : a <<< 1 = BitVec.ofNat 32 (2 * a.toNat) := by
  apply BitVec.eq_of_toNat_eq
  rw [BitVec.toNat_shiftLeft, BitVec.toNat_ofNat, Nat.shiftLeft_eq, pow_one, Nat.mul_comm]

/-- R116: the logical right shift halves the unsigned value, rounding down. -/
theorem ushiftRight_one_eq_ofNat (a : Word) : a >>> 1 = BitVec.ofNat 32 (a.toNat / 2) := by
  apply BitVec.eq_of_toNat_eq
  rw [BitVec.toNat_ushiftRight, BitVec.toNat_ofNat, Nat.shiftRight_one, Nat.mod_eq_of_lt (by omega)]

/-- Settles O15: each is a unary primitive; negation and the shifts are restated as arithmetic. -/
theorem unaryPrimitivesReplaceTheTop : Obligations.UnaryPrimitivesReplaceTheTop :=
  ⟨unaryResult_of_unaryOp (by decide) (fun _ => rfl) (fun _ => rfl),
    unaryResult_of_unaryOp (by decide) (fun _ => rfl) zero_sub_eq_not_add_one,
    unaryResult_of_unaryOp (by decide) (fun _ => rfl) (fun _ => rfl),
    unaryResult_of_unaryOp (by decide) (fun _ => rfl) (fun _ => rfl),
    unaryResult_of_unaryOp (by decide) (fun _ => rfl) shiftLeft_one_eq_ofNat,
    unaryResult_of_unaryOp (by decide) (fun _ => rfl) ushiftRight_one_eq_ofNat⟩

/-! ## The zero tests (R109 to R111, R117) -/

/-- R117: the cell of a test that decides `p`. -/
theorem flagCell_eq_ite {b : Bool} {p : Prop} [Decidable p] (h : b = true ↔ p) :
    flagCell b = if p then 0xFFFFFFFF#32 else 0#32 :=
  if_congr h rfl rfl

theorem flagCell_eq_allOnes_iff (b : Bool) : flagCell b = 0xFFFFFFFF#32 ↔ b = true := by
  cases b <;> decide

theorem isZero_iff_eq (a : Word) : isZero a = true ↔ a = 0#32 := decide_eq_true_iff

theorem isPositive_iff_bits (a : Word) : isPositive a = true ↔ a.getLsbD 31 = false ∧ a ≠ 0#32 := by
  simp [isPositive]

/-- R109: `0=` tests the signed reading. -/
theorem isZero_iff_toInt (a : Word) : isZero a = true ↔ a.toInt = 0 := by
  rw [isZero_iff_eq, ← BitVec.toInt_inj, BitVec.toInt_zero]

/-- R111: the sign bit is the sign of the signed reading. -/
theorem isNegative_iff_toInt (a : Word) : isNegative a = true ↔ a.toInt < 0 := by
  rw [isNegative, ← BitVec.msb_eq_getLsbD_last a, BitVec.msb_eq_toInt, decide_eq_true_iff]

/-- R110: neither negative nor zero. -/
theorem isPositive_iff_toInt (a : Word) : isPositive a = true ↔ 0 < a.toInt := by
  have hneg : a.getLsbD 31 = false ↔ ¬ a.toInt < 0 := by
    rw [← isNegative_iff_toInt, Bool.not_eq_true, isNegative]
  have hzero : a = 0#32 ↔ a.toInt = 0 := (isZero_iff_eq a).symm.trans (isZero_iff_toInt a)
  rw [isPositive_iff_bits, hneg, ne_eq, hzero]
  omega

/-- Settles O16: each test is a unary primitive, and its cell is TRUE for one sign of the signed reading. -/
theorem zeroTestsLeaveExactlyOneTrue : Obligations.ZeroTestsLeaveExactlyOneTrue := by
  refine ⟨unaryResult_of_unaryOp (by decide) (fun _ => rfl) fun a => flagCell_eq_ite (isZero_iff_eq a),
    unaryResult_of_unaryOp (by decide) (fun _ => rfl) fun a => flagCell_eq_ite (isPositive_iff_bits a),
    unaryResult_of_unaryOp (by decide) (fun _ => rfl) fun a => flagCell_eq_ite Iff.rfl, fun a => ⟨?zero, ?pos, ?neg⟩⟩
  case zero => exact (flagCell_eq_allOnes_iff _).trans (isZero_iff_toInt a)
  case pos => exact (flagCell_eq_allOnes_iff _).trans (isPositive_iff_toInt a)
  case neg => exact (flagCell_eq_allOnes_iff _).trans (isNegative_iff_toInt a)

end Sys2Proof.Machine

/-! # The data stack shuffles (43_prim_stack.md) -/

namespace Sys2Proof.Machine

open Sys2Proof.Claims

/-! ## The cells of the data stack (R6, R16) -/

/-- `D[k] := v`: a write to the k-th cell from the top. -/
def setCell (k : Nat) (v : Word) (s : State) : State := writeWord (s.dsp + BitVec.ofNat 32 (4 * k)) v s

@[simp] theorem setCell_dsp (k : Nat) (v : Word) (s : State) : (setCell k v s).dsp = s.dsp := rfl

theorem cellD_zero (s : State) : cellD s 0 = topD s := by simp [cellD, topD]

theorem setCell_zero (v : Word) (s : State) : setCell 0 v s = writeWord s.dsp v s := by simp [setCell]

/-- Two cells fewer than 2^18 from the top are distinct words: the wrap of R31 does not bring them together. -/
theorem wordBase_cell_ne (a : Word) {j k : Nat} (hkj : k < j) (hj : j < 262144) :
    wordBase (a + BitVec.ofNat 32 (4 * j)) ≠ wordBase (a + BitVec.ofNat 32 (4 * k)) := by
  rw [wordBase_eq, wordBase_eq, BitVec.toNat_add, BitVec.toNat_add, BitVec.toNat_ofNat, BitVec.toNat_ofNat]
  omega

section
variable {s : State}

theorem cellD_setCell_same (h : s.mem.wf) (k : Nat) (v : Word) : cellD (setCell k v s) k = v :=
  readWord_writeWord_same s _ _ v h rfl

/-- A write leaves the deeper cells as they are. -/
theorem cellD_setCell_of_lt {j k : Nat} (hkj : k < j) (hj : j < 262144) (v : Word) :
    cellD (setCell k v s) j = cellD s j :=
  readWord_writeWord_other s _ _ v (wordBase_cell_ne s.dsp hkj hj)

theorem setCell_mem_wf (h : s.mem.wf) (k : Nat) (v : Word) : (setCell k v s).mem.wf := writeWord_mem_wf s _ v h

/-- Writing back what a cell holds changes nothing. -/
theorem setCell_cellD (h : s.mem.wf) (k : Nat) : setCell k (cellD s k) s = s := by
  simp only [setCell, writeWord, cellD, readWord, putWord_cell_same _ h]

/-- The last write of a cell wins. -/
theorem setCell_setCell_same (h : s.mem.wf) (k : Nat) (v w : Word) :
    setCell k w (setCell k v s) = setCell k w s := by
  simp only [setCell, writeWord, putWord_putWord_same _ v w h (wordBase_lt _)]

/-- Writes to different cells commute. -/
theorem setCell_comm (h : s.mem.wf) {j k : Nat} (hkj : k < j) (hj : j < 262144) (v w : Word) :
    setCell j v (setCell k w s) = setCell k w (setCell j v s) := by
  have apart := wordBase_apart (wordBase_cell_ne s.dsp hkj hj).symm
  simp only [setCell, writeWord, putWord_comm _ w v h (wordBase_lt _) (wordBase_lt _) apart]

end

theorem sameBytesOutside_refl (s : State) : sameBytesOutside [] s s := sameBytesOutside_of_mem_eq rfl []

/-- One more write adds its cell to the frame. -/
theorem sameBytesOutside_setCell {cells : List Word} {s t : State} (h : sameBytesOutside cells s t) (k : Nat)
    (v : Word) : sameBytesOutside ((t.dsp + BitVec.ofNat 32 (4 * k)) :: cells) s (setCell k v t) := by
  intro a ha
  rw [List.forall_mem_cons] at ha
  exact (readByte_writeWord_other t _ a v ha.1).trans (h a ha.2)

/-! ## The top three cells at once -/

/-- `D[0], D[1], D[2] := x, y, z`. -/
def setTop (x y z : Word) (s : State) : State := setCell 0 x (setCell 1 y (setCell 2 z s))

section
variable {s : State} (h : s.mem.wf) (x y z : Word)
include h

theorem setTop_mem_wf : (setTop x y z s).mem.wf := setCell_mem_wf (setCell_mem_wf (setCell_mem_wf h 2 z) 1 y) 0 x

theorem cellD_setTop_zero : cellD (setTop x y z s) 0 = x :=
  cellD_setCell_same (setCell_mem_wf (setCell_mem_wf h 2 z) 1 y) 0 x

theorem cellD_setTop_one : cellD (setTop x y z s) 1 = y := by
  rw [setTop, cellD_setCell_of_lt (by decide) (by decide), cellD_setCell_same (setCell_mem_wf h 2 z)]

theorem cellD_setTop_two : cellD (setTop x y z s) 2 = z := by
  rw [setTop, cellD_setCell_of_lt (by decide) (by decide),
    cellD_setCell_of_lt (by decide) (by decide), cellD_setCell_same h]

/-- The last write of the three cells wins. -/
theorem setTop_setTop (x' y' z' : Word) : setTop x y z (setTop x' y' z' s) = setTop x y z s := by
  have h2 := setCell_mem_wf h 2 z
  have h2' := setCell_mem_wf h 2 z'
  have h12' := setCell_mem_wf h2' 1 y'
  calc setTop x y z (setTop x' y' z' s)
    _ = setCell 0 x (setCell 1 y (setCell 0 x' (setCell 1 y' (setCell 2 z s)))) := by
      rw [setTop, setTop, setCell_comm h12' (j := 2) (k := 0) (by decide) (by decide),
        setCell_comm h2' (j := 2) (k := 1) (by decide) (by decide), setCell_setCell_same h]
    _ = setCell 0 x (setCell 0 x' (setCell 1 y (setCell 2 z s))) := by
      rw [setCell_comm (setCell_mem_wf h2 1 y') (j := 1) (k := 0) (by decide) (by decide),
        setCell_setCell_same h2]
    _ = setTop x y z s := setCell_setCell_same (setCell_mem_wf h2 1 y) 0 x' x

end

/-- Writing back the top three cells changes nothing. -/
theorem setTop_cellD {s : State} (h : s.mem.wf) : setTop (cellD s 0) (cellD s 1) (cellD s 2) s = s := by
  rw [setTop, setCell_cellD h, setCell_cellD h, setCell_cellD h]

theorem sameBytesOutside_setTop (s : State) (x y z : Word) :
    sameBytesOutside [s.dsp, s.dsp + 4#32, s.dsp + 8#32] s (setTop x y z s) := by
  have third := sameBytesOutside_setCell (sameBytesOutside_refl s) 2 z
  simpa [setTop] using sameBytesOutside_setCell (sameBytesOutside_setCell third 1 y) 0 x

/-! ## The shuffles as writes of cells (R130 to R134) -/

theorem exec_dup_eq_pushD {s : State} (h : s.mem.wf) : exec .dup s = .next (pushD (cellD s 0) s) := by
  rw [cellD_zero]; exact exec_dup_eq h

theorem exec_over_eq_pushD {s : State} (h : s.mem.wf) : exec .overCell s = .next (pushD (cellD s 1) s) :=
  exec_over_eq h

theorem exec_swap_eq_setCell (s : State) :
    exec .swap s = .next (setCell 0 (cellD s 1) (setCell 1 (cellD s 0) s)) := by
  rw [setCell_zero, cellD_zero]; exact exec_swap_eq s

theorem exec_rot_eq_setTop (s : State) : exec .rot s = .next (setTop (cellD s 2) (cellD s 0) (cellD s 1) s) := by
  rw [setTop, setCell_zero, cellD_zero]; exact exec_rot_eq s

theorem exec_swap_eq_setTop {s : State} (h : s.mem.wf) :
    exec .swap s = .next (setTop (cellD s 1) (cellD s 0) (cellD s 2) s) := by
  rw [exec_swap_eq_setCell, setTop, setCell_cellD h]

/-! ## The stack effects (R130 to R134) -/

theorem cellD_pushD_zero {s : State} (h : s.mem.wf) (v : Word) : cellD (pushD v s) 0 = v := by
  rw [cellD_zero, topD_pushD s v h]

/-- A push moves every cell one down, as far as the wrap of R31 lets it. -/
theorem cellD_pushD_succ (s : State) (v : Word) {k : Nat} (hk : k + 1 < 262144) :
    cellD (pushD v s) (k + 1) = cellD s k := by
  have hcell : s.dsp - 4#32 + BitVec.ofNat 32 (4 * (k + 1)) = s.dsp + BitVec.ofNat 32 (4 * k) := by
    bv_omega
  have hother : wordBase (s.dsp + BitVec.ofNat 32 (4 * k)) ≠ wordBase (s.dsp - 4#32) := by
    have := wordBase_cell_ne (s.dsp - 4#32) (Nat.succ_pos k) hk
    simpa [hcell] using this
  simpa only [cellD, pushD_dsp, hcell] using readWord_pushD_other s v _ hother

/-- Settles O20: DUP and OVER are one push, SWAP writes two cells, ROT three, DROP none. -/
theorem shufflesHaveTheirStackEffects : Obligations.ShufflesHaveTheirStackEffects := by
  refine ⟨by decide, by decide, by decide, by decide, by decide, fun s h => ⟨?dup, ?overCell, ?swap, ?rot, rfl⟩⟩
  case dup =>
    exact ⟨_, exec_dup_eq_pushD h, rfl, cellD_pushD_zero h _, cellD_pushD_succ s _ (by decide),
      rfl, rfl, (keeps_pushD s _).sameSpecial, ⟨rfl, rfl, rfl⟩, sameBytesOutside_pushD s _⟩
  case overCell =>
    exact ⟨_, exec_over_eq_pushD h, rfl, cellD_pushD_zero h _, cellD_pushD_succ s _ (by decide),
      cellD_pushD_succ s _ (by decide),
      rfl, rfl, (keeps_pushD s _).sameSpecial, ⟨rfl, rfl, rfl⟩, sameBytesOutside_pushD s _⟩
  case swap =>
    have he := exec_swap_eq_setCell s
    have second := sameBytesOutside_setCell (sameBytesOutside_refl s) 1 (cellD s 0)
    have frame := sameBytesOutside_setCell second 0 (cellD s 1)
    have h1 := setCell_mem_wf h 1 (cellD s 0)
    exact ⟨_, he, rfl, cellD_setCell_same h1 0 _,
      (cellD_setCell_of_lt (by decide) (by decide) _).trans (cellD_setCell_same h 1 _),
      rfl, rfl, (exec_keeps he (by simp)).sameSpecial, ⟨rfl, rfl, rfl⟩, by simpa using frame⟩
  case rot =>
    have he := exec_rot_eq_setTop s
    exact ⟨_, he, rfl, cellD_setTop_zero h _ _ _, cellD_setTop_one h _ _ _, cellD_setTop_two h _ _ _,
      rfl, rfl, (exec_keeps he (by simp)).sameSpecial, ⟨rfl, rfl, rfl⟩, sameBytesOutside_setTop s _ _ _⟩

/-! ## Shuffles one after another (R130, R132 to R134) -/

theorem execAll_cons_of_next {i : Instr} {s t : State} (h : exec i s = .next t) (is : List Instr) :
    execAll (i :: is) s = execAll is t := by
  simp [execAll, h]

section
variable {s : State} (h : s.mem.wf) (x y z : Word)
include h

/-- R132: SWAP exchanges the top two cells. -/
theorem exec_swap_setTop : exec .swap (setTop x y z s) = .next (setTop y x z s) := by
  rw [exec_swap_eq_setTop (setTop_mem_wf h x y z), cellD_setTop_zero h, cellD_setTop_one h, cellD_setTop_two h,
    setTop_setTop h]

/-- R133: ROT brings the third cell to the top. -/
theorem exec_rot_setTop : exec .rot (setTop x y z s) = .next (setTop z x y s) := by
  rw [exec_rot_eq_setTop, cellD_setTop_zero h, cellD_setTop_one h, cellD_setTop_two h, setTop_setTop h]

theorem execAll_swap_swap_setTop : execAll [.swap, .swap] (setTop x y z s) = some (setTop x y z s) := by
  rw [execAll_cons_of_next (exec_swap_setTop h x y z), execAll_cons_of_next (exec_swap_setTop h y x z), execAll]

theorem execAll_rot_rot_rot_setTop : execAll [.rot, .rot, .rot] (setTop x y z s) = some (setTop x y z s) := by
  rw [execAll_cons_of_next (exec_rot_setTop h x y z), execAll_cons_of_next (exec_rot_setTop h z x y),
    execAll_cons_of_next (exec_rot_setTop h y z x), execAll]

end

/-- A pop takes back the pointer of a push and leaves its write. -/
theorem dropD_pushD (s : State) (v : Word) : dropD (pushD v s) = writeWord (s.dsp - 4#32) v s := by
  simp [dropD, pushD, writeWord]

/-- Settles O21: SWAP exchanges two of the top three cells and ROT turns them round; DUP is a push, DROP a pop. -/
theorem swapAndRotUndoThemselves : Obligations.SwapAndRotUndoThemselves := by
  refine fun s h => ⟨?swap, ?rot, ?dup⟩
  case swap => simpa only [setTop_cellD h] using execAll_swap_swap_setTop h (cellD s 0) (cellD s 1) (cellD s 2)
  case rot => simpa only [setTop_cellD h] using execAll_rot_rot_rot_setTop h (cellD s 0) (cellD s 1) (cellD s 2)
  case dup =>
    rw [execAll_cons_of_next (exec_dup_eq_pushD h), execAll_cons_of_next (t := dropD _) rfl, execAll, dropD_pushD]

end Sys2Proof.Machine

/-! # Return, transfers, conditional skip, hardware I/O (44_prim_return_skip_io.md) -/

namespace Sys2Proof.Machine

open Sys2Proof.Claims

/-! ## What `$HWIO` does with each command (R144, R145) -/

/-- R145: an answer that stands ready is the one given. -/
theorem keyAnswer_of_ready {s : State} {k : Option Word} {rest : List (Option Word)} (h : s.keyAnswers = k :: rest) :
    keyAnswer s = k := by
  simp [keyAnswer, h]

/-- R145: an answer that stands ready is consumed, and nothing else. -/
theorem takeKey_of_ready {s : State} {k : Option Word} {rest : List (Option Word)} (h : s.keyAnswers = k :: rest) :
    takeKey s = { s with keyAnswers := rest } := by
  simp [takeKey, h]

/-- A pop and the taking of an answer do not meet. -/
theorem takeKey_dropD (s : State) : takeKey (dropD s) = dropD (takeKey s) := by
  cases h : s.keyAnswers <;> simp [takeKey, dropD, h]

/-- R144: command 0, the answer is pushed over the popped command. -/
theorem exec_hwio_of_getKey {s : State} (h : topD s = 0#32) :
    exec .hwio s = .next (writeWord s.dsp ((keyAnswer s).getD 0#32) (takeKey (callBridge .getKey s))) := by
  have hpush : hwioGetKey (dropD s) = pushD ((keyAnswer s).getD 0#32) (dropD (takeKey (callBridge .getKey s))) :=
    congrArg _ (takeKey_dropD (callBridge .getKey s))
  simp [exec, execHwio, h, hpush, pushD_dropD]

/-- R144: command 1 forwards the second cell as the screen address. -/
theorem exec_hwio_of_setScreenWriteAddress {s : State} (h : topD s = 1#32) :
    exec .hwio s = .next (callBridge (.setScreenWriteAddress (secondD s)) (dropD (dropD s))) := by
  simp [exec, execHwio, h]

/-- R144: command 2 forwards the second cell as the screen write. -/
theorem exec_hwio_of_writeScreenMemory {s : State} (h : topD s = 2#32) :
    exec .hwio s = .next (callBridge (.writeScreenMemory (secondD s)) (dropD (dropD s))) := by
  simp [exec, execHwio, h]

/-- R144, R152: every other command is fatal. -/
theorem exec_hwio_of_reserved {s : State} (h0 : topD s ≠ 0#32) (h1 : topD s ≠ 1#32) (h2 : topD s ≠ 2#32) :
    exec .hwio s = .next (raiseFatal .reservedHwioCommand (topD s) [s.dsp] s) := by
  simp [exec, execHwio, h0, h1, h2]

/-! ## `$HWIO` (R144, R145) -/

/-- Settles O24: one equation per command; command 0 is one write after the bridge call, whose answer touches nothing else. -/
theorem hwioServesItsThreeCommands : Obligations.HwioServesItsThreeCommands := by
  refine ⟨by decide, fun s => ⟨fun h0 => ?getKey, fun h1 => ?setAddress, fun h2 => ?writeScreen,
    fun h0 h1 h2 => ?reserved⟩⟩
  case getKey =>
    have keeps : Keeps s (writeWord s.dsp ((keyAnswer s).getD 0#32) (takeKey (callBridge .getKey s))) :=
      ((keeps_callBridge s _).trans (keeps_takeKey _)).trans (keeps_writeWord _ _ _)
    refine ⟨_, exec_hwio_of_getKey h0, ?mem, by simp, by simp, by simp, by simp, keeps.sameSpecial⟩
    case mem =>
      simp only [writeWord_mem, takeKey_mem, takeKey_cfg, callBridge_mem, callBridge_cfg]
      cases keyAnswer s <;> rfl
  case setAddress => rw [exec_hwio_of_setScreenWriteAddress h1, dropD_dropD]; rfl
  case writeScreen => rw [exec_hwio_of_writeScreenMemory h2, dropD_dropD]; rfl
  case reserved =>
    exact ⟨_, exec_hwio_of_reserved h0 h1 h2, raiseFatal_haltsWith s _ _ (List.Subset.refl _)⟩

/-- Settles O25: with an answer ready, the state after the call differs from `s` in the calls and the answers only, and the one write
puts the answer in the top cell. -/
theorem hwioTakesTheReadyKeyAnswer : Obligations.HwioTakesTheReadyKeyAnswer := by
  intro s k rest hm h0 hk
  have htake : takeKey (callBridge .getKey s) = { callBridge .getKey s with keyAnswers := rest } := takeKey_of_ready hk
  have he := exec_hwio_of_getKey h0
  rw [keyAnswer_of_ready hk, htake] at he
  refine ⟨_, he, ?top, rfl, rfl, sameBytesOutside_writeWord _ s.dsp _⟩
  case top => rw [cellD_zero]; exact readWord_writeWord_same _ _ _ _ hm rfl

/-! ## Return, transfers and the conditional skip (R140 to R143) -/

/-- Settles O22: each whole effect is the meaning itself, one pop and one write of `pc` or one push. -/
theorem returnAndTransfersMoveCells : Obligations.ReturnAndTransfersMoveCells :=
  ⟨by decide, by decide, by decide, fun _ => ⟨rfl, rfl, rfl⟩⟩

/-- R143: a zero cell skips the next word. -/
theorem exec_skipIfZero_of_zero {s : State} (h : topD s = 0#32) :
    exec .skipIfZero s = .next (writePc (s.pc + 4#32) (dropD s)) := by
  simp [exec, execSkipIfZero, isZero, h]

/-- R143: any other cell is popped and nothing more. -/
theorem exec_skipIfZero_of_ne_zero {s : State} (h : topD s ≠ 0#32) : exec .skipIfZero s = .next (dropD s) := by
  simp [exec, execSkipIfZero, isZero, h]

/-- Settles O23: the two branches of the zero test. -/
theorem skipIfZeroSkipsOneWord : Obligations.SkipIfZeroSkipsOneWord :=
  ⟨by decide, fun _ => ⟨exec_skipIfZero_of_zero, exec_skipIfZero_of_ne_zero⟩⟩

end Sys2Proof.Machine

/-! # Exceptions, frames and the host's calls (60_exceptions.md) -/

namespace Sys2Proof.Machine

open Sys2Proof.Claims

/-! ## What an instruction leaves of the special state and the bridge (R10, R18, R145, R167) -/

/-- An instruction that leaves the core running has raised no fatal condition. -/
theorem exec_keeps_of_running {i : Instr} {s t : State} (h : exec i s = .next t) (ht : t.halted = false) :
    Keeps s t := by
  rcases exec_cases h with ⟨_, rfl, -⟩ | ⟨rfl, -⟩ | ⟨k, -, -⟩
  · simp at ht
  · simp at ht
  · exact k

/-- R167: an instruction other than `$HWIO` leaves the bridge alone, or raises a fatal condition and does nothing else. -/
theorem exec_sameBridge_or_raiseFatal {i : Instr} {s t : State} (h : exec i s = .next t) (hi : i ≠ .hwio) :
    sameBridge s t ∨ ∃ c v cells, t = raiseFatal c v cells s := by
  cases i
  case hwio => exact absurd rfl hi
  case fetch =>
    rcases exec_fetch_cases h with ⟨-, rfl⟩ | ⟨-, rfl⟩
    · exact .inr ⟨_, _, _, rfl⟩
    · exact .inl ⟨rfl, rfl, rfl⟩
  case store =>
    rcases exec_store_cases h with ⟨-, rfl⟩ | ⟨-, rfl⟩
    · exact .inr ⟨_, _, _, rfl⟩
    · exact .inl ⟨rfl, rfl, rfl⟩
  case plusStore =>
    rcases exec_plusStore_cases h with ⟨-, rfl⟩ | ⟨-, rfl⟩
    · exact .inr ⟨_, _, _, rfl⟩
    · exact .inl ⟨rfl, rfl, rfl⟩
  case bz => rcases exec_bz_cases h with ⟨-, rfl⟩ | ⟨-, rfl⟩ <;> exact .inl ⟨rfl, rfl, rfl⟩
  case skipIfZero => rcases exec_skipIfZero_cases h with ⟨-, rfl⟩ | ⟨-, rfl⟩ <;> exact .inl ⟨rfl, rfl, rfl⟩
  all_goals cases h; exact .inl ⟨rfl, rfl, rfl⟩

/-- Settles O29: without a fatal condition only `$HWIO` reaches the bridge; a fatal condition makes no call and takes no key. -/
theorem onlyHwioTalksToTheBridge : Obligations.OnlyHwioTalksToTheBridge := by
  refine fun i s t h => ⟨exec_cfg h, fun hi => ?bridge, fun _ ht =>
    ⟨(exec_keeps_of_running h ht).sameSpecial, fun hi => ?draws⟩⟩
  case bridge =>
    rcases exec_sameBridge_or_raiseFatal h hi with ⟨hcalls, hkeys, -⟩ | ⟨_, _, _, rfl⟩
    · exact ⟨hcalls, hkeys⟩
    · exact ⟨rfl, rfl⟩
  case draws =>
    rcases exec_sameBridge_or_raiseFatal h hi with ⟨-, -, hdraws⟩ | ⟨_, _, _, rfl⟩
    · exact hdraws
    · simp at ht

/-! ## The four fatal conditions (R150 to R152, R155) -/

/-- R153: the halt record a state reports: cause and info while halted, nothing while it runs. -/
def State.haltRecord (s : State) : Option (HaltCause × Word) :=
  if s.halted then some (s.haltCause, s.haltInfo) else none

theorem haltRecord_of_running {s : State} (h : s.halted = false) : s.haltRecord = none := by
  simp [State.haltRecord, h]

@[simp] theorem haltRecord_raiseFatal (c : HaltCause) (v : Word) (cells : List Word) (s : State) :
    (raiseFatal c v cells s).haltRecord = some (c, v) := rfl

/-- R153: what follows the dispatch leaves the halt record as it is. -/
@[simp] theorem haltRecord_finishStep (s : State) : (finishStep s).haltRecord = s.haltRecord := by
  cases h : s.halted with
  | true => rw [finishStep_of_halted h]
  | false => rw [finishStep_of_running h]; simp [State.haltRecord]

/-- R151, R152: the fatal condition an instruction raises over the top cell `top`. -/
def fatalOfInstr (i : Instr) (top : Word) : Option (HaltCause × Word) :=
  match i with
  | .fetch | .store | .plusStore => if top &&& 3#32 ≠ 0#32 then some (.misalignedWordAccess, top) else none
  | .hwio => if top = 0#32 ∨ top = 1#32 ∨ top = 2#32 then none else some (.reservedHwioCommand, top)
  | _ => none

/-- R150: an instruction halts exactly with the condition it raises. -/
theorem haltRecord_of_exec {i : Instr} {s t : State} (hs : s.halted = false) (h : exec i s = .next t) :
    t.haltRecord = fatalOfInstr i (topD s) := by
  rcases exec_cases h with ⟨_, rfl, hm, hi⟩ | ⟨rfl, rfl, h0, h1, h2⟩ | ⟨k, haligned, hcommand⟩
  · have hbits : topD s &&& 3#32 ≠ 0#32 := of_decide_eq_true hm
    rcases hi with rfl | rfl | rfl <;> exact (if_pos hbits).symm
  · simp [fatalOfInstr, h0, h1, h2]
  · rw [haltRecord_of_running (k.halted.trans hs)]
    cases i
    case fetch | store | plusStore => exact (if_neg (of_decide_eq_false (haligned (by simp)))).symm
    case hwio => exact (if_pos (hcommand rfl)).symm
    all_goals rfl

/-- R57, R58: under legal codes the two ways a word is rejected. -/
theorem decodeWord_eq_error_cases {codes : List Byte} (hcodes : primCodesWf codes = true) {w : Word} {r : Reject}
    (h : decodeWord codes w = .error r) :
    ((11 ≤ (classOf w).toNat ∧ (classOf w).toNat ≤ 14) ∧ r = .reservedClass w) ∨
    (classOf w = 15#4 ∧ codeOf w ∉ codes ∧ r = .reservedPrimitive (codeOf w)) := by
  rcases classOf_cases w with hc | hc | hc | hc | hc | hc
  · rw [decodeWord_of_litClass hc] at h; cases h
  · rw [decodeWord_of_callClass hc] at h; cases h
  · rw [decodeWord_of_braClass hc] at h; cases h
  · rw [decodeWord_of_bzClass hc] at h; cases h
  · rw [decodeWord_of_reservedClass hc] at h; cases h; exact .inl ⟨hc, rfl⟩
  · cases hp : primOfCode codes (codeOf w) with
    | some i => rw [decodeWord_of_assigned hc hp] at h; cases h
    | none =>
      obtain ⟨hlength, -⟩ := (primCodesWf_iff codes).1 hcodes
      have hcode : codeOf w ∉ codes := (primOfCode_eq_none_iff codes (codeOf w) hlength).1 hp
      rw [decodeWord_of_unassigned hc hcode] at h; cases h; exact .inr ⟨hc, hcode, rfl⟩

section
variable {s t : State}

theorem fatalOf_of_reservedClass (h : 11 ≤ (classOf (fetchWord s)).toNat ∧ (classOf (fetchWord s)).toNat ≤ 14) :
    fatalOf s = some (.reservedClass, fetchWord s) :=
  if_pos h

theorem fatalOf_of_unassigned (hclass : classOf (fetchWord s) = 15#4) (hcode : codeOf (fetchWord s) ∉ s.cfg.primCodes) :
    fatalOf s = some (.reservedPrimitive, (codeOf (fetchWord s)).setWidth 32) := by
  have hnot : ¬ (11 ≤ (classOf (fetchWord s)).toNat ∧ (classOf (fetchWord s)).toNat ≤ 14) := by simp [hclass]
  exact (if_neg hnot).trans (if_pos ⟨hclass, hcode⟩)

/-- R155: a word that decodes raises the condition of its instruction and neither of the decoder's. -/
theorem fatalOf_of_decoded {i : Instr} (hd : decodeWord s.cfg.primCodes (fetchWord s) = .ok i) :
    fatalOf s = fatalOfInstr i (topD s) := by
  have hclass : ¬ (11 ≤ (classOf (fetchWord s)).toNat ∧ (classOf (fetchWord s)).toNat ≤ 14) := fun hc => by
    rw [decodeWord_of_reservedClass hc] at hd; cases hd
  have hcode : ¬ (classOf (fetchWord s) = 15#4 ∧ codeOf (fetchWord s) ∉ s.cfg.primCodes) := fun ⟨hc, hp⟩ => by
    rw [decodeWord_of_unassigned hc hp] at hd; cases hd
  refine (if_neg hclass).trans ((if_neg hcode).trans ?_)
  have hd' : decodeWord s.cfg.primCodes (readWord s s.pc) = .ok i := hd
  simp only [hd']
  cases i <;> rfl

/-- R150: a step from a running core leaves the record of the condition its instruction raises. -/
theorem haltRecord_of_step (hs : s.halted = false) (hcodes : primCodesWf s.cfg.primCodes = true)
    (h : step s = .next t) : t.haltRecord = fatalOf s := by
  rcases step_next_cases h with ⟨hh, -⟩ | ⟨-, r, hd, rfl⟩ | ⟨-, i, u, hd, he, rfl⟩
  · simp [hs] at hh
  · rcases decodeWord_eq_error_cases hcodes hd with ⟨hc, rfl⟩ | ⟨hc, hp, rfl⟩
    · rw [fatalOf_of_reservedClass hc]; rfl
    · rw [fatalOf_of_unassigned hc hp]; rfl
  · rw [haltRecord_finishStep, fatalOf_of_decoded hd]
    exact haltRecord_of_exec (s := advancePc s) hs he

end

/-- Settles O36: the record of the stepped state is the condition raised, if any. -/
theorem stepHaltsExactlyOnTheFourConditions : Obligations.StepHaltsExactlyOnTheFourConditions := by
  intro s t hs hcodes h
  rw [← haltRecord_of_step hs hcodes h]
  cases ht : t.halted <;> simp [State.haltRecord, ht]

/-! ## Counting steps and frames (R70, R160) -/

/-- R70: a step that leaves the core running keeps the configuration and counts: at the budget it reduces the counter and signals a frame,
below it it does neither. -/
theorem step_counts_of_running {s t : State} (h : step s = .next t) (ht : t.halted = false) :
    s.halted = false ∧ t.cfg = s.cfg ∧
    ((s.cfg.cyclesPerFrame.toNat ≤ (s.cycles + 1#32).toNat ∧
        t.cycles = s.cycles + 1#32 - s.cfg.cyclesPerFrame ∧ t.signal = s.cfg.frameRate) ∨
      ((s.cycles + 1#32).toNat < s.cfg.cyclesPerFrame.toNat ∧ t.cycles = s.cycles + 1#32 ∧ t.signal = 0#32)) := by
  rcases step_next_cases h with ⟨hs, rfl⟩ | ⟨-, r, -, rfl⟩ | ⟨hs, i, u, -, he, rfl⟩
  · simp [hs] at ht
  · cases r <;> simp [raiseReject] at ht
  · cases hu : u.halted with
    | true => simp [hu] at ht
    | false =>
      have k := exec_keeps_of_running he hu
      have hcfg : u.cfg = s.cfg := k.cfg
      have hcycles : u.cycles = s.cycles := k.cycles
      rw [finishStep_of_running hu]
      refine ⟨hs, (countCycle_cfg u).trans hcfg, ?_⟩
      rw [← hcfg, ← hcycles]
      rcases countCycle_cases u with ⟨hle, heq⟩ | ⟨hlt, heq⟩ <;> rw [heq]
      · exact .inl ⟨hle, rfl, rfl⟩
      · exact .inr ⟨hlt, rfl, rfl⟩

/-- R18: a counter below the budget does not wrap when it counts one more. -/
theorem toNat_add_one_of_lt {c b : Word} (h : c.toNat < b.toNat) : (c + 1#32).toNat = c.toNat + 1 := by
  have := b.isLt
  rw [BitVec.toNat_add_of_lt] <;> simp; omega

/-- R160: whether a step signalled, as a number. -/
def signalCount (t : State) : Nat := if t.signal = 0#32 then 0 else 1

/-- R160: each step from a counter below the budget adds one to the cycles counted in full frames and in the counter together. -/
theorem step_cycles_of_running {s t : State} (hrate : s.cfg.frameRate ≠ 0#32)
    (hlt : s.cycles.toNat < s.cfg.cyclesPerFrame.toNat) (h : step s = .next t) (ht : t.halted = false) :
    t.cycles.toNat < s.cfg.cyclesPerFrame.toNat ∧
    t.cycles.toNat + s.cfg.cyclesPerFrame.toNat * signalCount t = s.cycles.toNat + 1 := by
  have hsucc := toNat_add_one_of_lt hlt
  obtain ⟨-, -, ⟨hle, hcycles, hsignal⟩ | ⟨hbelow, hcycles, hsignal⟩⟩ := step_counts_of_running h ht
  · rw [signalCount, hsignal, if_neg hrate, hcycles, BitVec.toNat_sub_of_le (BitVec.le_def.2 hle)]
    omega
  · rw [signalCount, hsignal, if_pos rfl, hcycles]
    omega

/-- The first `n` steps of a run all leave the core running. -/
def RunsFor (n : Nat) (s : State) : Prop := ∀ k ≤ n, ∃ t, runSteps k s = some t ∧ t.halted = false

theorem runSteps_succ {s t : State} (h : step s = .next t) (n : Nat) : runSteps (n + 1) s = runSteps n t := by
  simp [runSteps, h]

theorem frameSignals_succ {s t : State} (h : step s = .next t) (n : Nat) :
    frameSignals (n + 1) s = signalCount t + frameSignals n t := by
  simp [frameSignals, signalCount, h]

theorem RunsFor.after_step {n : Nat} {s t : State} (h : RunsFor (n + 1) s) (hs : step s = .next t) :
    t.halted = false ∧ RunsFor n t := by
  refine ⟨?_, fun k hk => ?_⟩
  · obtain ⟨u, hu, hrun⟩ := h 1 (by omega)
    rw [runSteps_succ hs] at hu
    cases hu; exact hrun
  · rw [← runSteps_succ hs]
    exact h (k + 1) (by omega)

/-- R160: over `n` steps the frames signalled and the counter together hold `n` more cycles than the counter held before. -/
theorem runSteps_cycles {n : Nat} {s : State} (hrate : s.cfg.frameRate ≠ 0#32)
    (hlt : s.cycles.toNat < s.cfg.cyclesPerFrame.toNat) (hruns : RunsFor n s) :
    ∃ t, runSteps n s = some t ∧ t.cycles.toNat < s.cfg.cyclesPerFrame.toNat ∧
      t.cycles.toNat + s.cfg.cyclesPerFrame.toNat * frameSignals n s = s.cycles.toNat + n := by
  induction n generalizing s with
  | zero => exact ⟨s, rfl, hlt, rfl⟩
  | succ n ih =>
    obtain ⟨t, ht⟩ := step_next s
    obtain ⟨hrun, htail⟩ := hruns.after_step ht
    obtain ⟨-, hcfg, -⟩ := step_counts_of_running ht hrun
    obtain ⟨hlt', hone⟩ := step_cycles_of_running hrate hlt ht hrun
    obtain ⟨u, hu, hult, hrest⟩ := ih (s := t) (by rwa [hcfg]) (by rwa [hcfg]) htail
    rw [hcfg] at hult hrest
    refine ⟨u, (runSteps_succ ht n).trans hu, hult, ?_⟩
    rw [frameSignals_succ ht, Nat.mul_add]
    omega

/-- R5: a legal configuration signals frames with a nonzero value. -/
theorem frameRate_ne_zero_of_wf {c : Config} (h : c.wf = true) : c.frameRate ≠ 0#32 := by
  simp only [Config.wf, Bool.and_eq_true, decide_eq_true_eq] at h
  obtain ⟨-, -, hrate⟩ := h
  exact hrate

/-- Settles O41: from a counter of 0, the counter and the frames are the remainder and the quotient. -/
theorem completedStepsAreCountedModuloTheBudget : Obligations.CompletedStepsAreCountedModuloTheBudget := by
  intro n s hwf hzero hruns
  have hzero' : s.cycles.toNat = 0 := by rw [hzero]; rfl
  obtain ⟨hpos, -⟩ := budget_of_wf hwf
  obtain ⟨t, ht, hlt, hsum⟩ := runSteps_cycles (frameRate_ne_zero_of_wf hwf) (by omega) hruns
  rw [hzero', Nat.zero_add] at hsum
  obtain ⟨hdiv, hmod⟩ := (Nat.div_mod_unique hpos).2 ⟨hsum, hlt⟩
  exact ⟨t, ht, hmod.symm, hdiv.symm⟩

/-! ## The driver (R161, R162) -/

/-- R161: from a counter below the budget the driver returns after the steps the budget leaves: the last of them signals the frame. -/
theorem executeWithin_returns {n : Nat} {s : State} (bps : Breakpoints) (hrate : s.cfg.frameRate ≠ 0#32)
    (hlt : s.cycles.toNat < s.cfg.cyclesPerFrame.toNat) (hn : s.cfg.cyclesPerFrame.toNat ≤ n + s.cycles.toNat) :
    ∃ r, executeWithin bps n s = some r := by
  induction n generalizing s with
  | zero => omega
  | succ n ih =>
    cases hs : s.halted with
    | true => exact ⟨_, executeWithin_of_halted hs bps _⟩
    | false =>
      obtain ⟨t, ht⟩ := step_next s
      rw [executeWithin_succ hs ht]
      split_ifs with hhalt hsignal hhit
      case neg =>
        have hrun : t.halted = false := by simpa using hhalt
        obtain ⟨-, hcfg, -⟩ := step_counts_of_running ht hrun
        obtain ⟨hlt', hone⟩ := step_cycles_of_running hrate hlt ht hrun
        rw [signalCount, if_pos (not_not.1 hsignal)] at hone
        exact ih (by rwa [hcfg]) (by rwa [hcfg]) (by rw [hcfg]; omega)
      all_goals exact ⟨_, rfl⟩

/-- R161: once a step has signalled no frame, the counter stands below the budget and the driver returns within it. -/
theorem executeWithin_returns_after_step {s t : State} (bps : Breakpoints) (hrate : s.cfg.frameRate ≠ 0#32)
    (h : step s = .next t) (ht : t.halted = false) (hsignal : t.signal = 0#32) :
    ∃ r, executeWithin bps s.cfg.cyclesPerFrame.toNat t = some r := by
  obtain ⟨-, hcfg, ⟨-, -, hframe⟩ | ⟨hbelow, hcycles, -⟩⟩ := step_counts_of_running h ht
  · exact absurd (hframe.symm.trans hsignal) hrate
  · refine executeWithin_returns bps (by rwa [hcfg]) ?_ (by rw [hcfg]; omega)
    rwa [hcfg, hcycles]

/-- Settles O47: one turn of the loop; where it goes on it returns within the budget, so one step of fuel less makes no difference. -/
theorem executeStepsThenTestsHaltFrameBreakpoint : Obligations.ExecuteStepsThenTestsHaltFrameBreakpoint := by
  refine fun bps s hrate => ⟨fun hs => executeWithin_of_halted hs bps _, fun t hs ht => ?_⟩
  rw [execute, executeWithin_succ hs ht]
  split_ifs with hhalt hsignal hhit
  case neg =>
    have hrun : t.halted = false := by simpa using hhalt
    obtain ⟨-, hcfg, -⟩ := step_counts_of_running ht hrun
    obtain ⟨r, hr⟩ := executeWithin_returns_after_step bps hrate ht hrun (not_not.1 hsignal)
    rw [execute, hcfg, hr]
    exact (executeWithin_mono hr _ (Nat.le_succ _)).symm
  all_goals rfl

/-- Settles O48: the budget is fuel enough, and more fuel changes nothing. -/
theorem executeReturnsWithinTheBudget : Obligations.ExecuteReturnsWithinTheBudget := by
  intro bps s hwf hrange
  have hreturns : ∃ r, executeWithin bps s.cfg.cyclesPerFrame.toNat s = some r := by
    cases hs : s.halted with
    | true => exact ⟨_, executeWithin_of_halted hs bps _⟩
    | false =>
      have hlt : s.cycles.toNat < s.cfg.cyclesPerFrame.toNat := by simpa [State.cyclesInRange, hs] using hrange
      exact executeWithin_returns bps (frameRate_ne_zero_of_wf hwf) hlt (by omega)
  obtain ⟨⟨r, t⟩, hr⟩ := hreturns
  exact ⟨r, t, hr, executeWithin_mono hr _ (Nat.le_succ _)⟩

/-- Settles O49: the test is equality, and a legal `pc` is masked while the value is not. -/
theorem breakpointsMatchExactly : Obligations.BreakpointsMatchExactly := by
  refine ⟨fun pc a b => ⟨rfl, ?one, ?two⟩, fun pc a hpc ha => ?illegal⟩
  case one => simp [Breakpoints.hit]
  case two => simp [Breakpoints.hit]
  case illegal =>
    have hne : pc ≠ a := by rintro rfl; exact ha hpc
    simp [Breakpoints.hit, hne]

/-! ## The host's calls (R154, R163, R165) -/

/-- Settles O50: the two branches of the test on the class; the call hands back the session it was given. -/
theorem stepOverTargetIsAfterACall : Obligations.StepOverTargetIsAfterACall :=
  fun _ => ⟨fun hcall => if_pos hcall, fun hother => if_neg hother, fun _ => rfl⟩

/-- Settles O51: a Poke is a word write and a Peek a word read. -/
theorem peekSeesWhatPokeWrote : Obligations.PeekSeesWhatPokeWrote :=
  fun s a b v hm => ⟨readWord_writeWord s a b v hm, rfl, sameBytesOutside_writeWord s a v⟩

/-- R182: an accepted image changes memory only. -/
theorem eq_of_loadImage {bytes : List Byte} {s t : State} (h : loadImage bytes s = some t) :
    t = { s with mem := s.mem.putBytes 0 bytes } := by
  unfold loadImage at h
  split at h
  · cases h; rfl
  · cases h

/-- R154: `t` is halted exactly when `s` is, with the same record. -/
def KeepsHalt (s t : State) : Prop :=
  t.halted = s.halted ∧ t.haltCause = s.haltCause ∧ t.haltInfo = s.haltInfo

/-- R154: the host's single step leaves a halted core halted. -/
theorem keepsHalt_of_stepCall {q q' : Session} {a : HostAnswer} (hq : q.state.halted = true)
    (h : q.stepCall = .next (a, q')) : KeepsHalt q.state q'.state := by
  simp only [Session.stepCall, step_of_halted hq] at h
  cases h; exact ⟨rfl, rfl, rfl⟩

/-- R154: the driver leaves a halted core as it is. -/
theorem keepsHalt_of_executeCall {bps : Breakpoints} {q q' : Session} {a : HostAnswer} (hq : q.state.halted = true)
    (h : q.executeCall bps = .next (a, q')) : KeepsHalt q.state q'.state := by
  simp only [Session.executeCall, execute, executeWithin_of_halted hq] at h
  cases h; exact ⟨rfl, rfl, rfl⟩

/-- R154: no host call but Reset leaves the halted state or changes its record. -/
theorem keepsHalt_of_call {c : HostCall} {q q' : Session} {a : HostAnswer} (hq : q.state.halted = true)
    (hc : c ≠ .reset) (h : Session.call c q = .next (a, q')) : KeepsHalt q.state q'.state := by
  cases c
  case reset => exact absurd rfl hc
  case loadImage bytes =>
    cases hload : loadImage bytes q.state with
    | none => simp [Session.call, hload] at h
    | some t =>
      simp only [Session.call, hload] at h
      cases h
      rw [eq_of_loadImage hload]; exact ⟨rfl, rfl, rfl⟩
  case step =>
    simp only [Session.call] at h
    split at h
    · exact keepsHalt_of_stepCall hq h
    · cases h
  case execute bps =>
    simp only [Session.call] at h
    split at h
    · exact keepsHalt_of_executeCall hq h
    · cases h
  case stepOverTarget | status | peek | poke => cases h; exact ⟨rfl, rfl, rfl⟩

/-- Settles O43: the halted step, the driver at a halted core, and the host's calls one by one. -/
theorem onlyResetLeavesTheHaltedState : Obligations.OnlyResetLeavesTheHaltedState := by
  refine ⟨fun s => step_of_halted, fun s bps hs => executeWithin_of_halted hs bps _, fun c q q' a hq hc h => ?call,
    fun q => ⟨_, rfl, rfl⟩, fun q addr v => ⟨rfl, rfl, rfl⟩⟩
  case call =>
    obtain ⟨hhalted, hcause, hinfo⟩ := keepsHalt_of_call hq hc h
    exact ⟨hhalted.trans hq, hcause, hinfo⟩

end Sys2Proof.Machine

/-! # Reset, the image and the first session (70_reset_and_hazards.md) -/

namespace Sys2Proof.Machine

open Sys2Proof.Claims

/-! ## The image (R40, R182) -/

/-- Storing a run of bytes leaves every byte below it alone. -/
theorem byteAt_putBytes_of_lt (bytes : List Byte) (m : Memory) {k j : Nat} (h : j < k) :
    (m.putBytes k bytes).byteAt j = m.byteAt j := by
  induction bytes generalizing m k with
  | nil => rfl
  | cons b rest ih =>
    calc ((m.putByte k b).putBytes (k + 1) rest).byteAt j
      _ = (m.putByte k b).byteAt j := ih _ (Nat.lt_succ_of_lt h)
      _ = m.byteAt j := byteAt_putByte_other m b (Nat.ne_of_lt h)

theorem wf_putBytes (bytes : List Byte) {m : Memory} {k : Nat} (hm : m.wf) (hk : k + bytes.length ≤ memBytes) :
    (m.putBytes k bytes).wf := by
  induction bytes generalizing m k with
  | nil => exact hm
  | cons b rest ih =>
    rw [List.length_cons] at hk
    have hput : (m.putByte k b).wf := wf_putByte b hm (by omega)
    exact ih hput (by omega)

/-- From the start of the run upwards a byte is the run's, or as before past its end. -/
theorem byteAt_putBytes_add (bytes : List Byte) {m : Memory} {k : Nat} (hm : m.wf) (hk : k + bytes.length ≤ memBytes)
    (i : Nat) : (m.putBytes k bytes).byteAt (k + i) = bytes[i]?.getD (m.byteAt (k + i)) := by
  induction bytes generalizing m k i with
  | nil => rfl
  | cons b rest ih =>
    rw [List.length_cons] at hk
    cases i with
    | zero =>
      calc ((m.putByte k b).putBytes (k + 1) rest).byteAt k
        _ = (m.putByte k b).byteAt k := byteAt_putBytes_of_lt rest _ (Nat.lt_succ_self k)
        _ = b := byteAt_putByte_same b hm
    | succ i =>
      have hput : (m.putByte k b).wf := wf_putByte b hm (by omega)
      calc ((m.putByte k b).putBytes (k + 1) rest).byteAt (k + (i + 1))
        _ = rest[i]?.getD ((m.putByte k b).byteAt (k + (i + 1))) := by
          simpa only [Nat.add_assoc, Nat.add_comm 1 i] using ih (k := k + 1) hput (by omega) i
        _ = rest[i]?.getD (m.byteAt (k + (i + 1))) := by rw [byteAt_putByte_other m b (by omega)]

theorem loadImage_of_fits {bytes : List Byte} (h : bytes.length ≤ memBytes) (s : State) :
    loadImage bytes s = some { s with mem := s.mem.putBytes 0 bytes } := if_pos h

theorem loadImage_of_too_long {bytes : List Byte} (h : memBytes < bytes.length) (s : State) :
    loadImage bytes s = none := if_neg (Nat.not_le.2 h)

/-- Settles O52: the image is a run of bytes from 0, which ends inside the memory. -/
theorem imageLoadsVerbatimFromByteZero : Obligations.ImageLoadsVerbatimFromByteZero := by
  refine ⟨fun bytes s hm hlen => ?fits, fun bytes q hlen => ?tooLong⟩
  case fits =>
    have hrun : 0 + bytes.length ≤ memBytes := by rwa [Nat.zero_add]
    refine ⟨_, loadImage_of_fits hlen s, wf_putBytes bytes hm hrun, rfl, fun a => ?_⟩
    have hread := byteAt_putBytes_add bytes hm hrun (byteIndex a)
    rw [Nat.zero_add] at hread
    rw [readByte, hread]
    cases bytes[byteIndex a]? <;> rfl
  case tooLong => simp only [Session.call, loadImage_of_too_long hlen]

/-! ## Reset (R180) -/

/-- R180: the one word Reset writes is the pushed RELOC_BASE. -/
theorem resetOp_mem (s : State) : (resetOp s).mem = (writeWord (s.cfg.rstDsp - 4#32) s.cfg.relocBase s).mem := rfl

/-- Reads after Reset are reads after its one write, since Reset leaves the byte order as it is. -/
theorem readWord_resetOp (s : State) (a : Word) :
    readWord (resetOp s) a = readWord (writeWord (s.cfg.rstDsp - 4#32) s.cfg.relocBase s) a := rfl

theorem sameBytesOutside_resetOp (s : State) : sameBytesOutside [s.cfg.rstDsp - 4#32] s (resetOp s) :=
  sameBytesOutside_writeWord s _ _

theorem topD_resetOp {s : State} (h : s.mem.wf) : topD (resetOp s) = s.cfg.relocBase :=
  (readWord_resetOp s _).trans (readWord_writeWord_same s _ _ _ h rfl)

/-- Reset enters the invariant from any state with a legal configuration and canonical memory: it clears the counter and
masks `pc`. -/
theorem resetOp_inv {s : State} (hc : s.cfg.wf = true) (hm : s.mem.wf = true) : (resetOp s).inv = true := by
  obtain ⟨hbudget, -⟩ := budget_of_wf hc
  refine (inv_iff _).2 ⟨hc, ?mem, and_pcMask_idem _, .inr hbudget⟩
  case mem => rw [resetOp_mem]; exact writeWord_mem_wf s _ _ hm

/-- Settles O44: every register is set outright, and memory sees the push alone. -/
theorem resetEstablishesTheEntryState : Obligations.ResetEstablishesTheEntryState :=
  fun s => ⟨rfl, rfl, rfl, rfl, rfl, resetOp_mem s, rfl, rfl, sameBytesOutside_resetOp s,
    fun hm => (cellD_zero _).trans (topD_resetOp hm)⟩

/-- Settles O45: on a memory that lists nothing the entry slot reads 0, and pushing RELOC_BASE = 0 lists nothing; both sides
then compute to the same state. -/
theorem resetStateIsWhatResetLeaves : Obligations.ResetStateIsWhatResetLeaves := rfl

/-- Settles O39: the state is a reset one (O45), and the halt record and the draws are no part of the invariant. -/
theorem resetStateMeetsTheMachineInvariant : Obligations.ResetStateMeetsTheMachineInvariant := by
  have hreset : (resetOp (Session.powerUp Config.ref [] []).state).inv = true := resetOp_inv (by decide) rfl
  unfold Obligations.ResetStateMeetsTheMachineInvariant
  rw [← resetStateIsWhatResetLeaves]
  exact hreset

/-! ## The session before and after Reset (R166, R181) -/

section
variable {q : Session}

theorem call_step_before_reset (h : q.resetDone = false) : Session.call .step q = .refused .beforeFirstReset := by
  simp [Session.call, h]

theorem call_execute_before_reset (h : q.resetDone = false) (bps : Breakpoints) :
    Session.call (.execute bps) q = .refused .beforeFirstReset := by
  simp [Session.call, h]

theorem call_step_after_reset (h : q.resetDone = true) : Session.call .step q = q.stepCall := if_pos h

theorem call_execute_after_reset (h : q.resetDone = true) (bps : Breakpoints) :
    Session.call (.execute bps) q = q.executeCall bps := if_pos h

theorem stepCall_of_step {t : State} (h : step q.state = .next t) :
    q.stepCall = .next (.signal t.signal, { q with state := t }) := by
  rw [Session.stepCall, h]

theorem executeCall_of_returns {bps : Breakpoints} {r : ExecuteResult} {t : State}
    (h : execute bps q.state = some (r, t)) : q.executeCall bps = .next (.ran r, { q with state := t }) := by
  rw [Session.executeCall, h]

theorem executeCall_of_none {bps : Breakpoints} (h : execute bps q.state = none) :
    q.executeCall bps = .refused .illegalConfig := by
  rw [Session.executeCall, h]

end

/-- Settles O46: the session's own test on `resetDone`, then what the step and the driver answer. -/
theorem stepsHaveNoMeaningBeforeTheFirstReset : Obligations.StepsHaveNoMeaningBeforeTheFirstReset := by
  refine ⟨fun q bps hq => ?before, fun q => rfl, fun q hq => ?step,
    fun q bps hq => ⟨fun r t hr => ?returns, fun hn => ?none⟩⟩
  case before => exact ⟨call_step_before_reset hq, call_execute_before_reset hq bps⟩
  case step =>
    obtain ⟨t, ht⟩ := step_next q.state
    exact ⟨t, ht, (call_step_after_reset hq).trans (stepCall_of_step ht)⟩
  case returns => exact (call_execute_after_reset hq bps).trans (executeCall_of_returns hr)
  case none => exact (call_execute_after_reset hq bps).trans (executeCall_of_none hn)

end Sys2Proof.Machine
